-- ==== Sys2Proof/Word.lean ====
section
/-! DEFINITION. The word types of the CORE (spec 10_state.md R20, R23, R25; 00_scope.md R5). -/

namespace Sys2Proof

/-- One addressable unit of memory, one general register, one timer: 8 bits (R20, R27, R50). -/
abbrev Byte := BitVec 8

/-- PC, I, IR, a stack entry, an instruction word: 16 bits (R23, R25, R28, R29, R70). -/
abbrev Word := BitVec 16

/-- The number of a general register, V0 to VF (R20, R73: field value k selects `V[k]`). -/
abbrev Reg := Fin 16

/-- VF, the flag register (R22). -/
abbrev regF : Reg := 15

end Sys2Proof
end

