-- ==== Sys2Proof/Syntax.lean ====
section
/-! DEFINITION. The instruction set as syntax: one constructor for each of the 34 rows of
spec/opcode_table.json (spec 30_encoding.md R78), and the shape of a row of that table.
Operands are those of spec 00_scope.md R10: X and Y name registers, NN is an 8-bit immediate, NNN a
12-bit address immediate, N a row count (a count, so a natural number: WellFormed bounds it). -/

namespace Sys2Proof

/-- The CHIP8-CORE instruction set, in the order of R78. -/
inductive Instr where
  /-- 00E0, clear the frame buffer (R163). -/
  | cls
  /-- 00EE, return (R103). -/
  | ret
  /-- 1NNN, jump (R101). -/
  | jp (nnn : BitVec 12)
  /-- 2NNN, call (R102). -/
  | call (nnn : BitVec 12)
  /-- 3XNN, skip if VX = NN (R105). -/
  | seImm (x : Reg) (nn : Byte)
  /-- 4XNN, skip if VX ≠ NN (R106). -/
  | sneImm (x : Reg) (nn : Byte)
  /-- 5XY0, skip if VX = VY (R107). -/
  | seReg (x y : Reg)
  /-- 6XNN, VX ← NN (R122). -/
  | ldImm (x : Reg) (nn : Byte)
  /-- 7XNN, VX ← VX + NN, no flag (R124). -/
  | addImm (x : Reg) (nn : Byte)
  /-- 8XY0, VX ← VY (R125). -/
  | ldReg (x y : Reg)
  /-- 8XY1, VX ← VX or VY (R126). -/
  | orReg (x y : Reg)
  /-- 8XY2, VX ← VX and VY (R127). -/
  | andReg (x y : Reg)
  /-- 8XY3, VX ← VX xor VY (R128). -/
  | xorReg (x y : Reg)
  /-- 8XY4, VX ← VX + VY, VF ← carry (R129). -/
  | addReg (x y : Reg)
  /-- 8XY5, VX ← VX − VY, VF ← borrow flag (R130). -/
  | subReg (x y : Reg)
  /-- 8XY6, VX ← source shifted right, VF ← bit 0 of the source (R131). -/
  | shr (x y : Reg)
  /-- 8XY7, VX ← VY − VX, VF ← borrow flag (R132). -/
  | subnReg (x y : Reg)
  /-- 8XYE, VX ← source shifted left, VF ← bit 7 of the source (R133). -/
  | shl (x y : Reg)
  /-- 9XY0, skip if VX ≠ VY (R108). -/
  | sneReg (x y : Reg)
  /-- ANNN, I ← NNN (R141). -/
  | ldI (nnn : BitVec 12)
  /-- BNNN, jump to NNN + V0 (R104). -/
  | jpV0 (nnn : BitVec 12)
  /-- CXNN, VX ← random and NN (R134). -/
  | rnd (x : Reg) (nn : Byte)
  /-- DXYN, draw an N-row sprite at (VX, VY), VF ← collision (R164). -/
  | drw (x y : Reg) (n : Nat)
  /-- EX9E, skip if key VX is down (R182). -/
  | skp (x : Reg)
  /-- EXA1, skip if key VX is up (R183). -/
  | sknp (x : Reg)
  /-- FX07, VX ← DT (R185). -/
  | ldVxDt (x : Reg)
  /-- FX0A, wait for a key, VX ← its index (R184). -/
  | ldVxK (x : Reg)
  /-- FX15, DT ← VX (R186). -/
  | ldDtVx (x : Reg)
  /-- FX18, ST ← VX (R187). -/
  | ldStVx (x : Reg)
  /-- FX1E, I ← I + VX (R142). -/
  | addI (x : Reg)
  /-- FX29, I ← address of the font sprite for digit VX (R143). -/
  | ldF (x : Reg)
  /-- FX33, store the decimal digits of VX at I, I+1, I+2 (R144). -/
  | ldB (x : Reg)
  /-- FX55, store V0 to VX at I upward (R145). -/
  | stRegs (x : Reg)
  /-- FX65, load V0 to VX from I upward (R146). -/
  | ldRegs (x : Reg)
  deriving DecidableEq, Repr

/-- One row of the opcode map (R78): a word `w` is the row's instruction exactly when
`w and mask = bits` (the table's `match`). -/
structure OpcodeRow where
  mask : Word
  bits : Word
  deriving DecidableEq, Repr

end Sys2Proof
end

