-- ==== Sys2Proof/Config.lean ====
section
/-! DEFINITION. The open parameters of the hardware (spec 00_scope.md R6), as the configuration that a machine
is built with.  Only their TYPES stand here: the values the spec takes by default are in
Machine/Params.lean.  A machine carries its parameters in `State.params`, which no step changes, so
that every statement about a state is a statement about every setting of the parameters (log 1). -/

namespace Sys2Proof

/-- `SUB_FLAG` (R6, R130, R132): what 8XY5 and 8XY7 write to VF. -/
inductive SubFlag where
  /-- VF is the borrow: 1 when a borrow occurred. -/
  | borrow
  /-- VF is the negation of the borrow. -/
  | notBorrow
  deriving DecidableEq, Repr

/-- `SHIFT_SOURCE` (R6, R131, R133): the register that 8XY6 and 8XYE shift. -/
inductive ShiftSource where
  | vx
  | vy
  deriving DecidableEq, Repr

/-- `DRAW_EDGE` (R6, R164): what DXYN does with cells past the right or the bottom edge. -/
inductive DrawEdge where
  | wrap
  | clip
  deriving DecidableEq, Repr

/-- `KEY_INDEX` (R6, R143, R181): what EX9E, EXA1 and FX29 do with a register above 15. -/
inductive KeyIndex where
  /-- Use the low four bits. -/
  | mask
  /-- Raise `OperandRangeError`. -/
  | fault
  deriving DecidableEq, Repr

/-- The parameters of R6, all seven. -/
structure Params where
  /-- `TIMER_DIVIDER`: ticks per timer decrement, at least 1 (`Params.wf`); the spec gives no default (OPEN). -/
  timerDivider : Nat
  /-- `FONT`: the 80 bytes that `Initialize` installs at 0x50. -/
  font : Vector Byte 80
  subFlag : SubFlag
  shiftSource : ShiftSource
  drawEdge : DrawEdge
  keyIndex : KeyIndex
  /-- `INDEX_INCREMENT`: whether FX55 and FX65 add X+1 to I. -/
  indexIncrement : Bool
  deriving DecidableEq, Repr

/-- R6: `TIMER_DIVIDER` is a natural number, at least 1.  Every other parameter is legal by its type. -/
def Params.wf (p : Params) : Bool := 1 ≤ p.timerDivider

end Sys2Proof
end

