-- ==== Sys2Proof/Machine/Params.lean ====
section
/-! DEFINITION. The numbers of the hardware: its fixed sizes and addresses (spec 00_scope.md R5) and the
default settings of its open parameters (R6).  They stand here, and not in State.lean or Config.lean,
so that one that a test should show wrong can be mended. -/

namespace Sys2Proof.Machine

/-- R5, R50: 4096 bytes at addresses 0 to 4095. -/
def memBytes : Nat := 4096

/-- R5, R51: the font table starts at 0x50. -/
def fontBase : Nat := 0x50

/-- R5, R51: the program image starts at 0x200. -/
def imageBase : Nat := 0x200

/-- R206, R262: what `Initialize` writes to PC. -/
def entryPC : Word := 0x200

/-- R260: PC after power-on, before any `Initialize`. -/
def powerOnPC : Word := 0

/-- R5, R160: columns of the frame buffer. -/
def fbCols : Nat := 64

/-- R5, R160: rows of the frame buffer. -/
def fbRows : Nat := 32

/-- Digits 0 to 7 of the default font (R264, from general knowledge by its own words). -/
def fontLow : List Byte :=
  [0xF0, 0x90, 0x90, 0x90, 0xF0] ++ [0x20, 0x60, 0x20, 0x20, 0x70] ++
  [0xF0, 0x10, 0xF0, 0x80, 0xF0] ++ [0xF0, 0x10, 0xF0, 0x10, 0xF0] ++
  [0x90, 0x90, 0xF0, 0x10, 0x10] ++ [0xF0, 0x80, 0xF0, 0x10, 0xF0] ++
  [0xF0, 0x80, 0xF0, 0x90, 0xF0] ++ [0xF0, 0x10, 0x20, 0x40, 0x40]

/-- Digits 8 to F of the default font (R264). -/
def fontHigh : List Byte :=
  [0xF0, 0x90, 0xF0, 0x90, 0xF0] ++ [0xF0, 0x90, 0xF0, 0x10, 0xF0] ++
  [0xF0, 0x90, 0xF0, 0x90, 0x90] ++ [0xE0, 0x90, 0xE0, 0x90, 0xE0] ++
  [0xF0, 0x80, 0x80, 0x80, 0xF0] ++ [0xE0, 0x90, 0x90, 0x90, 0xE0] ++
  [0xF0, 0x80, 0xF0, 0x80, 0xF0] ++ [0xF0, 0x80, 0xF0, 0x80, 0x80]

/-- The default `FONT` (R6, R264). -/
def defaultFont : Vector Byte 80 := ⟨(fontLow ++ fontHigh).toArray, rfl⟩

/-- The defaults of R6.  `TIMER_DIVIDER` has none (OPEN): 1 is the model's DESIGN CHOICE for the one
machine that `State.reset` is (log 2), and no statement rests on it. -/
def defaultParams : Params where
  timerDivider := 1
  font := defaultFont
  subFlag := .borrow
  shiftSource := .vx
  drawEdge := .wrap
  keyIndex := .mask
  indexIncrement := false

end Sys2Proof.Machine
end

