-- ==== Sys2Proof/Machine/State.lean ====
section
/-! DEFINITION. The state of the CORE as plain data (spec 10_state.md), the events and inputs of its
interface (spec 46_execution_loop.md R200 to R204), the reasons a step can stop, and the state after
power-on (R45, R260). -/

namespace Sys2Proof.Machine

/-- `MEM` (R32, R50): the bytes that differ from what an unlisted address reads as, addresses strictly
rising.  Machine/Ops.lean holds the operations, what an unlisted address reads as, and the canonical form
`Memory.wf`. -/
abbrev Memory := List Host.Cell

/-- `FB` (R30, R160): 32 rows, top row first, of 64 one-bit cells; bit x of row y is the cell in column
x and row y, that is `FB[64*y + x]`. -/
abbrev FrameBuf := Vector (BitVec 64) 32

/-- `LSTATE` (R33). -/
inductive LoopState where
  | uninitialized
  | ready
  | running
  | stopped
  | failed
  deriving DecidableEq, Repr

/-- The fault kinds of R231, each with the information it records. -/
inductive FaultInfo where
  /-- `Run` with no renderer bound: a failed command, never a loop fault (R232). -/
  | configurationError
  /-- The fetched word is no instruction; it carries the word (R233). -/
  | decodeError (word : Word)
  /-- The class is empty: nothing raises it (R82, R234); listed because R231 lists it. -/
  | unimplementedOpcode (word : Word)
  /-- An access reaches past address 4095; it carries the start address (R235). -/
  | memoryBoundsError (addr : Word)
  /-- The presentation failed (R236). -/
  | rendererError
  /-- Belongs to the external loader; the CORE never raises it (R237). -/
  | loadError
  /-- A 17th nested call; it carries the PC of the call (R238). -/
  | stackOverflow (pc : Word)
  /-- A return with no call; it carries the PC of the return (R238). -/
  | stackUnderflow (pc : Word)
  /-- V[X] above 15 under `KEY_INDEX = fault`; it carries V[X] (R239). -/
  | operandRangeError (value : Byte)
  deriving DecidableEq, Repr

/-- `RESULT` (R34). -/
inductive LoopResult where
  | none
  | cancelled
  | fault (info : FaultInfo)
  deriving DecidableEq, Repr

/-- The four inputs that a tick samples (R202). -/
structure TickInputs where
  /-- `rnd`, read in the execute phase, by CXNN only: a draw, under no law (R134). -/
  rnd : Byte
  /-- `present_ok`, read in the present phase. -/
  presentOk : Bool
  /-- `keys_in`, read in the input-refresh phase; bit k is key k. -/
  keysIn : BitVec 16
  /-- `cancel`, read in the cancellation check. -/
  cancel : Bool
  deriving DecidableEq, Repr

/-- What the host does to the CORE, one event at a time (R201, R204). -/
inductive HostEvent where
  /-- The command `Initialize` (R206). -/
  | initializeCmd
  /-- The command `Load(bytes)` (R207). -/
  | loadCmd (bytes : List Byte)
  /-- The command `Run`, with the level of `renderer_bound` when it is issued (R202, R209). -/
  | runCmd (rendererBound : Bool)
  /-- One `tick`, with the values of its four inputs (R202, R208). -/
  | tick (inputs : TickInputs)
  /-- The one thing R204 says a host must never do and gives no meaning to: a command, a tick or a second
  `Run` issued while a tick or a command is still in progress. -/
  | concurrentLaunch
  deriving DecidableEq, Repr

/-- What a command or a `tick` answers the host with (R207, R209, R220). -/
inductive CmdStatus where
  /-- No command or tick has been issued since power-on. -/
  | noneYet
  | accepted
  /-- A failed command: `Load` of an image that is too long, `Run` with no renderer. -/
  | failedWith (info : FaultInfo)
  /-- Refused: R205 has no row for the event in this loop state (R220). -/
  | refused
  deriving DecidableEq, Repr

/-- The whole state.  The first fourteen fields are the spec's (R20 to R35, the table R45); the last five
are the model's own, and hold what R37 and R203 call parameters, inputs and outputs (log 1, 3, 4). -/
structure State where
  /-- `V[0]` to `V[15]` (R20). -/
  v : Vector Byte 16
  /-- `I` (R25). -/
  i : Word
  /-- `PC` (R23). -/
  pc : Word
  /-- `SP`, 0 to 16 (R26). -/
  sp : Fin 17
  /-- `STACK[0]` to `STACK[15]` (R29). -/
  stack : Vector Word 16
  /-- `DT` (R27). -/
  dt : Byte
  /-- `ST` (R27). -/
  st : Byte
  /-- `IR` (R28). -/
  ir : Word
  /-- `FB[0]` to `FB[2047]` (R30). -/
  fb : FrameBuf
  /-- `KEYS[0]` to `KEYS[15]`, bit k is key k (R31). -/
  keys : BitVec 16
  /-- `MEM[0]` to `MEM[4095]` (R32). -/
  mem : Memory
  /-- `LSTATE` (R33). -/
  lstate : LoopState
  /-- `RESULT` (R34). -/
  result : LoopResult
  /-- `TDIV`, 0 to `TIMER_DIVIDER - 1` (R35). -/
  tdiv : Nat
  /-- The machine's parameters (R6): fixed, no step changes them. -/
  params : Params
  /-- The inputs of the tick in progress, or of the last tick that ran (R202). -/
  inputs : TickInputs
  /-- The host's events that the CORE has not taken yet, oldest first (R201). -/
  host : List HostEvent
  /-- Output: the status of the last command or tick (R207, R209, R220). -/
  status : CmdStatus
  /-- Output `fb_out`: the frame last handed to the renderer, none before the first (R203, R214). -/
  fbOut : Option FrameBuf
  deriving DecidableEq, Repr

/-- Why the machine stops.  Every error that the spec names has an entry the spec describes (R240) and is
therefore a next state with `lstate` failed; what is left is the one event without a meaning. -/
inductive Fault where
  /-- Raised by step, on `HostEvent.concurrentLaunch` only.  R204: "not modelled: the spec gives such a launch
  no meaning".  Safe: the model stops where the hardware may do anything. -/
  | concurrentLaunch
  deriving DecidableEq, Repr

/-- Why an instruction has no meaning. -/
inductive Refusal where
  /-- Raised by exec's arms for an instruction that is not modelled (there is none left).  Safe: the model
  stops where the hardware goes on. -/
  | notModelled (mnemonic : String)
  deriving DecidableEq, Repr

/-- What a step answers. -/
abbrev StepResult := Host.Outcome State Fault Refusal

/-- The inputs before any tick: no random bits, presentation works, no key, no cancellation.  The model's
own (log 4): a tick brings its own inputs, so no tick the host issues reads these. -/
def quietInputs : TickInputs := ⟨0, true, 0, false⟩

/-- Power-on (R45, R260), for a machine built with the parameters `p`: everything 0, `Uninitialized`,
no result; the host has done nothing yet. -/
def State.powerOn (p : Params) : State where
  v := Vector.replicate 16 0
  i := 0
  pc := powerOnPC
  sp := 0
  stack := Vector.replicate 16 0
  dt := 0
  st := 0
  ir := 0
  fb := Vector.replicate 32 0
  keys := 0
  mem := []
  lstate := .uninitialized
  result := .none
  tdiv := 0
  params := p
  inputs := quietInputs
  host := []
  status := .noneYet
  fbOut := none

/-- The machine right after power-on, with the defaults of R6. -/
def State.reset : State := State.powerOn defaultParams

end Sys2Proof.Machine
end

