-- ==== Sys2Proof/Machine/Ops.lean ====
section
/-! DEFINITION. The named operations over memory, registers, program counter, call stack and frame buffer,
and the one operation that takes a fault.  Every meaning is written over these. -/

namespace Sys2Proof.Machine

/-! ## Memory (spec 20_memory.md) -/

/-- What an address that is not listed reads as: 0, the power-on content of every byte (R45, R260). -/
def Memory.unlisted : Byte := 0

/-- The byte at an address (R50, R60: plain storage). -/
def Memory.read (m : Memory) (a : Nat) : Byte :=
  match m with
  | [] => Memory.unlisted
  | (b, x) :: rest => if a = b then x else Memory.read rest a

/-- Storing one byte.  The canonical form is kept: addresses rise, and the value an unlisted address reads
as removes the entry. -/
def Memory.write (m : Memory) (a : Nat) (x : Byte) : Memory :=
  match m with
  | [] => if x = Memory.unlisted then [] else [(a, x)]
  | (b, y) :: rest =>
    if a < b then (if x = Memory.unlisted then (b, y) :: rest else (a, x) :: (b, y) :: rest)
    else if a = b then (if x = Memory.unlisted then rest else (a, x) :: rest)
    else (b, y) :: Memory.write rest a x

/-- `n` bytes upward from an address, in ascending order (R9 `MemRead`, R54). -/
def Memory.readBytes (m : Memory) (a n : Nat) : List Byte :=
  (List.range n).map fun k => Memory.read m (a + k)

/-- Storing a list of bytes upward from an address, in ascending order (R9 `MemWrite`, R54). -/
def Memory.writeBytes (m : Memory) (a : Nat) (bytes : List Byte) : Memory :=
  match bytes with
  | [] => m
  | x :: rest => Memory.writeBytes (Memory.write m a x) (a + 1) rest

/-- Every listed address is at least `lo` and below the end of the address space, addresses rise strictly,
and no entry equals what an unlisted address reads as. -/
def Memory.canonicalFrom (lo : Nat) (m : Memory) : Bool :=
  match m with
  | [] => true
  | (a, x) :: rest =>
    lo ≤ a && a < memBytes && x ≠ Memory.unlisted && Memory.canonicalFrom (a + 1) rest

/-- The canonical form of memory, over the address space of R50: equal memories are equal lists. -/
def Memory.wf (m : Memory) : Bool := Memory.canonicalFrom 0 m

/-- The check of R57 before any access of `n` bytes at `a`: `n = 0 or a + n <= 4096`, the sum not wrapped. -/
def dataInBounds (a : Word) (n : Nat) : Bool := n = 0 || a.toNat + n ≤ memBytes

/-- The addresses from 0 that an access of `n` bytes at `a` reaches. -/
def accessRange (a : Word) (n : Nat) : List Nat := (List.range n).map fun k => a.toNat + k

/-! ## Registers (spec 10_state.md) -/

/-- Reading `V[x]` (R9, R20). -/
def State.reg (s : State) (x : Reg) : Byte := s.v[x]

/-- Writing `V[x]` (R9, R20); VF is written like any register (R21). -/
def State.setReg (s : State) (x : Reg) (b : Byte) : State := { s with v := s.v.set x b }

/-- The result first, the flag second (R121): with x = 15 VF ends holding the flag. -/
def State.setResultAndFlag (s : State) (x : Reg) (result flag : Byte) : State :=
  (s.setReg x result).setReg regF flag

/-- `I <- w` (R25). -/
def State.setIndex (s : State) (w : Word) : State := { s with i := w }

/-- A 16-bit sum, taken `mod 65536` (R24, R104, R142, R145). -/
def addWord (w : Word) (k : Nat) : Word := BitVec.ofNat 16 (w.toNat + k)

/-- `zext_16(NNN)` (R73). -/
def wordOfNNN (nnn : BitVec 12) : Word := nnn.setWidth 16

/-! ## Program counter (R23) -/

/-- `PC <- w`. -/
def State.setPC (s : State) (w : Word) : State := { s with pc := w }

/-- `PC <- (PC + 2) mod 65536`, the end of every instruction that does not branch (R23). -/
def State.advance (s : State) : State := s.setPC (addWord s.pc 2)

/-- A skip: 4 in place of 2 when the condition holds (R100). -/
def State.skipIf (s : State) (c : Bool) : State := s.setPC (addWord s.pc (if c then 4 else 2))

/-! ## Taking a fault (spec 60_exceptions.md) -/

/-- Fault entry (R240): `RESULT <- Fault(kind, info)`, `LSTATE <- Failed`, and nothing else.  Control goes
nowhere: there is no vector, no saved PC, no mode.  There is no return beside it, because the hardware has
none (R242): only power-on leaves `Failed`. -/
def State.takeFault (s : State) (f : FaultInfo) : State := { s with result := .fault f, lstate := .failed }

/-- An instruction that completes (R11). -/
def complete (s : State) : StepResult := .next s

/-- `raise f` in an instruction (R9, R11, R240): no write of the instruction happens. -/
def raise (f : FaultInfo) (s : State) : StepResult := .next (s.takeFault f)

/-- An instruction that accesses `n` bytes at I (R57): `MemoryBoundsError(I)` if they are not all inside the
address space, and otherwise what the instruction does. -/
def withData (s : State) (n : Nat) (r : StepResult) : StepResult :=
  if dataInBounds s.i n then r else raise (.memoryBoundsError s.i) s

/-! ## Data at I (R140) -/

/-- `MemWrite(I, …)`, the bounds having been checked (R9). -/
def State.storeAtIndex (s : State) (bytes : List Byte) : State :=
  { s with mem := Memory.writeBytes s.mem s.i.toNat bytes }

/-- `[V[0], …, V[x]]` (R145). -/
def State.regsUpTo (s : State) (x : Reg) : List Byte := s.v.toList.take (x.val + 1)

/-- `V[k] <- MEM[I + k]` for k from 0 to x (R146); the registers above x are unchanged. -/
def State.loadRegsUpTo (s : State) (x : Reg) : State :=
  { s with v := Vector.ofFn fun k : Reg =>
      if k.val ≤ x.val then Memory.read s.mem (s.i.toNat + k.val) else s.v[k] }

/-- `if INDEX_INCREMENT then I <- (I + n) mod 65536` (R145, R146). -/
def State.bumpIndex (s : State) (n : Nat) : State :=
  if s.params.indexIncrement then s.setIndex (addWord s.i n) else s

/-! ## Call stack (R29) -/

/-- Pushing a return address (R102); none when 16 are already stacked. -/
def State.push (s : State) (ret : Word) : Option State :=
  if h : s.sp.val < 16 then
    some { s with stack := s.stack.set s.sp.val ret, sp := ⟨s.sp.val + 1, by omega⟩ }
  else none

/-- Popping the newest return address (R103); none when the stack is empty.  The slot keeps its value. -/
def State.pop (s : State) : Option (Word × State) :=
  if h : 0 < s.sp.val then
    some (s.stack[s.sp.val - 1]'(by omega), { s with sp := ⟨s.sp.val - 1, by omega⟩ })
  else none

/-! ## Frame buffer (spec 43_display.md R160) -/

/-- `FB[i]`, i from 0 to 2047: row i div 64, column i mod 64 (R30, R160). -/
def FrameBuf.cell (fb : FrameBuf) (i : Nat) : Bool :=
  if h : i / fbCols < 32 then (fb[i / fbCols]'h).getLsbD (i % fbCols) else false

/-- `FB[i] <- FB[i] xor 1` (R164). -/
def FrameBuf.flip (fb : FrameBuf) (i : Nat) : FrameBuf :=
  if h : i / fbCols < 32 then
    fb.set (i / fbCols) ((fb[i / fbCols]'h) ^^^ BitVec.twoPow 64 (i % fbCols))
  else fb

/-- All cells 0 (R163). -/
def FrameBuf.clear : FrameBuf := Vector.replicate 32 0

/-- `FB <- fb`. -/
def State.setFrame (s : State) (fb : FrameBuf) : State := { s with fb := fb }

/-! ## Keypad latch (R31) -/

/-- `KEYS[k] = 1`. -/
def State.keyDown (s : State) (k : Nat) : Bool := s.keys.getLsbD k

end Sys2Proof.Machine
end

