-- ==== Sys2Proof/Machine/Flags.lean ====
section
/-! DEFINITION. Every flag computation and the 8-bit arithmetic beside it (spec 41_alu.md R121 to R135).
Operands are taken as natural numbers, the result is computed exactly, and is narrowed at the end. -/

namespace Sys2Proof.Machine

/-- A flag as VF holds it: 0 or 1 (R22). -/
def flagByte (b : Bool) : Byte := if b then 1 else 0

/-- `(a + b) mod 256` (R124, R129). -/
def addByte (a b : Byte) : Byte := BitVec.ofNat 8 (a.toNat + b.toNat)

/-- The carry out of bit 7: the 9-bit sum is above 255 (R129). -/
def addCarry (a b : Byte) : Bool := 255 < a.toNat + b.toNat

/-- `(a - b) mod 256`, that is a - b + 256 when a < b (R130, R132). -/
def subByte (a b : Byte) : Byte := BitVec.ofNat 8 (a.toNat + 256 - b.toNat)

/-- The borrow: the minuend is less than the subtrahend (R130, R132, R135). -/
def subBorrow (a b : Byte) : Bool := a.toNat < b.toNat

/-- What `SUB_FLAG` makes of the borrow (R130, R132). -/
def subFlag (m : SubFlag) (borrow : Bool) : Bool :=
  match m with
  | .borrow => borrow
  | .notBorrow => !borrow

/-- Logical shift right by one: `s div 2`, bit 7 becomes 0 (R131). -/
def shrByte (s : Byte) : Byte := BitVec.ofNat 8 (s.toNat / 2)

/-- The bit that a right shift shifts out: `s[0]` (R131). -/
def shrOut (s : Byte) : Bool := s.getLsbD 0

/-- Logical shift left by one: `(s * 2) mod 256`, bit 0 becomes 0 (R133). -/
def shlByte (s : Byte) : Byte := BitVec.ofNat 8 (s.toNat * 2)

/-- The bit that a left shift shifts out: `s[7]` (R133). -/
def shlOut (s : Byte) : Bool := s.getLsbD 7

/-- The decimal digits of a byte: hundreds, tens, ones (R144). -/
def bcdDigits (b : Byte) : List Byte :=
  [BitVec.ofNat 8 (b.toNat / 100), BitVec.ofNat 8 (b.toNat / 10 % 10), BitVec.ofNat 8 (b.toNat % 10)]

end Sys2Proof.Machine
end

