-- ==== Sys2Proof/Machine/Operands.lean ====
section
/-! DEFINITION. The operand forms: the register a shift reads, the key or digit number a register names,
the register that FX0A reports, and the cells a sprite covers. -/

namespace Sys2Proof.Machine

/-- The source of 8XY6 and 8XYE, by `SHIFT_SOURCE` (R131, R133). -/
def State.shiftOperand (s : State) (x y : Reg) : Byte :=
  match s.params.shiftSource with
  | .vx => s.reg x
  | .vy => s.reg y

/-- The key number of R181 and the digit of R143 that a register value names, by `KEY_INDEX`: none when the
value is above 15 and `KEY_INDEX = fault`, else the low four bits. -/
def hexOperand (m : KeyIndex) (b : Byte) : Option (Fin 16) :=
  match m with
  | .mask => some (Fin.ofNat 16 b.toNat)
  | .fault => if 15 < b.toNat then none else some (Fin.ofNat 16 b.toNat)

/-- An instruction that takes a key or digit number from `V[X]` (R143, R181): `OperandRangeError(V[X])` when
the register names none, and otherwise what the instruction does with the number. -/
def withHexOperand (s : State) (x : Reg) (r : Fin 16 → StepResult) : StepResult :=
  match hexOperand s.params.keyIndex (s.reg x) with
  | some k => r k
  | none => raise (.operandRangeError (s.reg x)) s

/-- The smallest k with `KEYS[k] = 1` (R184); none when every key is up. -/
def lowestKey (keys : BitVec 16) : Option Nat := (List.range 16).find? fun k => keys.getLsbD k

/-- `0x50 + 5 * d`, the address of a digit's sprite (R143). -/
def fontAddress (d : Fin 16) : Word := BitVec.ofNat 16 (fontBase + 5 * d.val)

/-- The start position of a sprite: `V[X] mod 64`, `V[Y] mod 32` (R164, R165 a). -/
def State.drawOrigin (s : State) (x y : Reg) : Nat × Nat :=
  ((s.reg x).toNat % fbCols, (s.reg y).toNat % fbRows)

/-- The index of the cell in column x and row y, each past its edge at most once, by `DRAW_EDGE` (R164): wrapped,
or none when it is clipped. -/
def cellIndex (e : DrawEdge) (x y : Nat) : Option Nat :=
  match e with
  | .wrap => some (fbCols * (y % fbRows) + x % fbCols)
  | .clip => if fbCols ≤ x || fbRows ≤ y then none else some (fbCols * y + x)

/-- The cells that one row of a sprite toggles, left to right: bit 7 is the leftmost (R161, R164). -/
def rowCells (e : DrawEdge) (x0 y : Nat) (row : Byte) : List Nat :=
  (List.range 8).filterMap fun c => if row.getLsbD (7 - c) then cellIndex e (x0 + c) y else none

/-- The cells that a sprite toggles, top row first (R161, R164). -/
def spriteCells (e : DrawEdge) (x0 y0 : Nat) (rows : List Byte) : List Nat :=
  match rows with
  | [] => []
  | row :: rest => rowCells e x0 y0 row ++ spriteCells e x0 (y0 + 1) rest

/-- Toggling one cell: a set cell that is cleared is a collision (R164). -/
def toggleCell (acc : FrameBuf × Bool) (i : Nat) : FrameBuf × Bool :=
  (acc.1.flip i, acc.2 || acc.1.cell i)

/-- The whole drawing loop of R164: the new frame buffer, and whether a set cell was cleared. -/
def drawCells (fb : FrameBuf) (cells : List Nat) : FrameBuf × Bool := cells.foldl toggleCell (fb, false)

end Sys2Proof.Machine
end

