-- ==== Sys2Proof/Machine/Alu.lean ====
section
/-! DEFINITION. The register load, ALU and random instructions (spec 41_alu.md): 6XNN, 7XNN, 8XY0 to 8XY7,
8XYE, CXNN.  Operands are read first, the flag is written after the result (R120, R121). -/

namespace Sys2Proof.Machine

/-- 6XNN (R122): the literal NN. -/
def execLdImm (x : Reg) (nn : Byte) (s : State) : StepResult := complete ((s.setReg x nn).advance)

/-- 7XNN (R124): no flag, also on overflow. -/
def execAddImm (x : Reg) (nn : Byte) (s : State) : StepResult :=
  complete ((s.setReg x (addByte (s.reg x) nn)).advance)

/-- 8XY0 (R125). -/
def execLdReg (x y : Reg) (s : State) : StepResult := complete ((s.setReg x (s.reg y)).advance)

/-- 8XY1 (R126); no flag (R123). -/
def execOrReg (x y : Reg) (s : State) : StepResult := complete ((s.setReg x (s.reg x ||| s.reg y)).advance)

/-- 8XY2 (R127); no flag (R123). -/
def execAndReg (x y : Reg) (s : State) : StepResult := complete ((s.setReg x (s.reg x &&& s.reg y)).advance)

/-- 8XY3 (R128); no flag (R123). -/
def execXorReg (x y : Reg) (s : State) : StepResult := complete ((s.setReg x (s.reg x ^^^ s.reg y)).advance)

/-- 8XY4 (R129): VF is the carry out; no carry is added in. -/
def execAddReg (x y : Reg) (s : State) : StepResult :=
  complete ((s.setResultAndFlag x (addByte (s.reg x) (s.reg y))
    (flagByte (addCarry (s.reg x) (s.reg y)))).advance)

/-- 8XY5 (R130): VX - VY; VF by `SUB_FLAG`. -/
def execSubReg (x y : Reg) (s : State) : StepResult :=
  complete ((s.setResultAndFlag x (subByte (s.reg x) (s.reg y))
    (flagByte (subFlag s.params.subFlag (subBorrow (s.reg x) (s.reg y))))).advance)

/-- 8XY6 (R131): the source by `SHIFT_SOURCE`; VF is the bit shifted out. -/
def execShr (x y : Reg) (s : State) : StepResult :=
  complete ((s.setResultAndFlag x (shrByte (s.shiftOperand x y)) (flagByte (shrOut (s.shiftOperand x y)))).advance)

/-- 8XY7 (R132): VY - VX; VF by `SUB_FLAG`. -/
def execSubnReg (x y : Reg) (s : State) : StepResult :=
  complete ((s.setResultAndFlag x (subByte (s.reg y) (s.reg x))
    (flagByte (subFlag s.params.subFlag (subBorrow (s.reg y) (s.reg x))))).advance)

/-- 8XYE (R133): the source by `SHIFT_SOURCE`; VF is the bit shifted out. -/
def execShl (x y : Reg) (s : State) : StepResult :=
  complete ((s.setResultAndFlag x (shlByte (s.shiftOperand x y)) (flagByte (shlOut (s.shiftOperand x y)))).advance)

/-- CXNN (R134): the tick's input `rnd`, masked. -/
def execRnd (x : Reg) (nn : Byte) (s : State) : StepResult := complete ((s.setReg x (s.inputs.rnd &&& nn)).advance)

end Sys2Proof.Machine
end

