-- ==== Sys2Proof/Machine/Display.lean ====
section
/-! DEFINITION. The display instructions 00E0 and DXYN, and the delta encoder (spec 43_display.md). -/

namespace Sys2Proof.Machine

/-- 00E0 (R163). -/
def execCls (s : State) : StepResult := complete ((s.setFrame FrameBuf.clear).advance)

/-- The drawing of DXYN: `MemRead(I, N)`, then the loop of R164 from the old V[X] and V[Y]. -/
def State.drawn (s : State) (x y : Reg) (n : Nat) : FrameBuf × Bool :=
  drawCells s.fb (spriteCells s.params.drawEdge (s.drawOrigin x y).1 (s.drawOrigin x y).2
    (Memory.readBytes s.mem s.i.toNat n))

/-- DXYN (R164, R165): VF is the collision, 0 or 1, on every completed draw. -/
def execDrw (x y : Reg) (n : Nat) (s : State) : StepResult :=
  withData s n (complete (((s.setFrame (s.drawn x y n).1).setReg regF (flagByte (s.drawn x y n).2)).advance))

/-- `Delta(prev, cur)` (R166): the cells that differ, in ascending order of index, each with its new value. -/
def delta (prev cur : FrameBuf) : List (Nat × Bool) :=
  (List.range (fbCols * fbRows)).filterMap fun i =>
    if prev.cell i = cur.cell i then none else some (i, cur.cell i)

/-- The query of R168: the host's previous snapshot against `FB`.  It changes no state. -/
def State.deltaQuery (s : State) (prev : FrameBuf) : List (Nat × Bool) := delta prev s.fb

/-- Setting one cell to a value. -/
def FrameBuf.setCell (fb : FrameBuf) (p : Nat × Bool) : FrameBuf := if fb.cell p.1 = p.2 then fb else fb.flip p.1

/-- What a holder of the previous snapshot does with a delta (R167: applying the pairs to `prev`). -/
def applyDelta (prev : FrameBuf) (d : List (Nat × Bool)) : FrameBuf := d.foldl FrameBuf.setCell prev

end Sys2Proof.Machine
end

