-- ==== Sys2Proof/Machine/Flow.lean ====
section
/-! DEFINITION. Control transfer (spec 40_flow.md): 1NNN, 2NNN, 00EE, BNNN, 3XNN, 4XNN, 5XY0, 9XY0.  Targets
are not checked when the instruction executes (R100). -/

namespace Sys2Proof.Machine

/-- 1NNN (R101). -/
def execJp (nnn : BitVec 12) (s : State) : StepResult := complete (s.setPC (wordOfNNN nnn))

/-- 2NNN (R102): pushes the address of the instruction after the call; `StackOverflow(PC)` when the stack is
full. -/
def execCall (nnn : BitVec 12) (s : State) : StepResult :=
  match s.push (addWord s.pc 2) with
  | some t => complete (t.setPC (wordOfNNN nnn))
  | none => raise (.stackOverflow s.pc) s

/-- 00EE (R103): `StackUnderflow(PC)` when the stack is empty. -/
def execRet (s : State) : StepResult :=
  match s.pop with
  | some (ret, t) => complete (t.setPC ret)
  | none => raise (.stackUnderflow s.pc) s

/-- BNNN (R104): a 16-bit sum, not reduced to 12 bits. -/
def execJpV0 (nnn : BitVec 12) (s : State) : StepResult :=
  complete (s.setPC (addWord (wordOfNNN nnn) (s.reg 0).toNat))

/-- 3XNN (R105). -/
def execSeImm (x : Reg) (nn : Byte) (s : State) : StepResult := complete (s.skipIf (s.reg x == nn))

/-- 4XNN (R106). -/
def execSneImm (x : Reg) (nn : Byte) (s : State) : StepResult := complete (s.skipIf (s.reg x != nn))

/-- 5XY0 (R107). -/
def execSeReg (x y : Reg) (s : State) : StepResult := complete (s.skipIf (s.reg x == s.reg y))

/-- 9XY0 (R108). -/
def execSneReg (x y : Reg) (s : State) : StepResult := complete (s.skipIf (s.reg x != s.reg y))

end Sys2Proof.Machine
end

