-- ==== Sys2Proof/Machine/Index.lean ====
section
/-! DEFINITION. The index register and memory transfer instructions (spec 42_index_memory.md): ANNN, FX1E,
FX29, FX33, FX55, FX65. -/

namespace Sys2Proof.Machine

/-- ANNN (R141). -/
def execLdI (nnn : BitVec 12) (s : State) : StepResult := complete ((s.setIndex (wordOfNNN nnn)).advance)

/-- FX1E (R142): no flag, no fault, `mod 65536`. -/
def execAddI (x : Reg) (s : State) : StepResult :=
  complete ((s.setIndex (addWord s.i (s.reg x).toNat)).advance)

/-- FX29 (R143): it reads no memory. -/
def execLdF (x : Reg) (s : State) : StepResult :=
  withHexOperand s x fun d => complete ((s.setIndex (fontAddress d)).advance)

/-- FX33 (R144). -/
def execLdB (x : Reg) (s : State) : StepResult :=
  withData s 3 (complete ((s.storeAtIndex (bcdDigits (s.reg x))).advance))

/-- FX55 (R145): V0 to VX, VF included when X = 15. -/
def execStRegs (x : Reg) (s : State) : StepResult :=
  withData s (x.val + 1) (complete (((s.storeAtIndex (s.regsUpTo x)).bumpIndex (x.val + 1)).advance))

/-- FX65 (R146). -/
def execLdRegs (x : Reg) (s : State) : StepResult :=
  withData s (x.val + 1) (complete (((s.loadRegsUpTo x).bumpIndex (x.val + 1)).advance))

end Sys2Proof.Machine
end

