-- ==== Sys2Proof/Machine/KeypadTimers.lean ====
section
/-! DEFINITION. The keypad and timer instructions (spec 44_keypad_timers.md): EX9E, EXA1, FX0A, FX07, FX15,
FX18.  Keys are those of the latch `KEYS`, never of the key source (R180). -/

namespace Sys2Proof.Machine

/-- EX9E (R182). -/
def execSkp (x : Reg) (s : State) : StepResult :=
  withHexOperand s x fun k => complete (s.skipIf (s.keyDown k.val))

/-- EXA1 (R183). -/
def execSknp (x : Reg) (s : State) : StepResult :=
  withHexOperand s x fun k => complete (s.skipIf (!s.keyDown k.val))

/-- FX0A (R184): while no key is down it holds, with no write at all; else the lowest key down. -/
def execLdVxK (x : Reg) (s : State) : StepResult :=
  match lowestKey s.keys with
  | none => complete s
  | some k => complete ((s.setReg x (BitVec.ofNat 8 k)).advance)

/-- FX07 (R185). -/
def execLdVxDt (x : Reg) (s : State) : StepResult := complete ((s.setReg x s.dt).advance)

/-- `DT <- b` (R186). -/
def State.setDelay (s : State) (b : Byte) : State := { s with dt := b }

/-- `ST <- b` (R187). -/
def State.setSound (s : State) (b : Byte) : State := { s with st := b }

/-- FX15 (R186). -/
def execLdDtVx (x : Reg) (s : State) : StepResult := complete ((s.setDelay (s.reg x)).advance)

/-- FX18 (R187). -/
def execLdStVx (x : Reg) (s : State) : StepResult := complete ((s.setSound (s.reg x)).advance)

end Sys2Proof.Machine
end

