-- ==== Sys2Proof/Machine/Loop.lean ====
section
/-! DEFINITION. The execution loop (spec 46_execution_loop.md): the three commands, the seven phases of a tick,
and one event of the host, all of it around a function that runs one instruction.  Machine/Step.lean puts
`exec` in its place. -/

namespace Sys2Proof.Machine

/-! ## Commands -/

/-- The answer to a command or a tick. -/
def State.answer (s : State) (c : CmdStatus) : State := { s with status := c }

/-- R205: `Initialize` and `Load` are accepted in `Uninitialized` and `Ready`. -/
def State.acceptsSetup (s : State) : Bool := s.lstate = .uninitialized || s.lstate = .ready

/-- The writes of `Initialize` (R206), nothing else. -/
def State.initializeWrites (s : State) : State :=
  { s with
    pc := entryPC
    i := 0
    ir := 0
    mem := Memory.writeBytes s.mem fontBase s.params.font.toList
    lstate := .ready }

/-- The command `Initialize` (R206, R220). -/
def State.cmdInitialize (s : State) : State :=
  if s.acceptsSetup then s.initializeWrites.answer .accepted else s.answer .refused

/-- R58, R207: the image fits. -/
def imageFits (bytes : List Byte) : Bool := imageBase + bytes.length ≤ memBytes

/-- The writes of `Load` (R207), nothing else. -/
def State.loadWrites (s : State) (bytes : List Byte) : State :=
  { s with mem := Memory.writeBytes s.mem imageBase bytes }

/-- The command `Load(bytes)` (R58, R207, R220): an image that does not fit writes nothing. -/
def State.cmdLoad (s : State) (bytes : List Byte) : State :=
  if s.acceptsSetup then
    if imageFits bytes then (s.loadWrites bytes).answer .accepted
    else s.answer (.failedWith (.memoryBoundsError (BitVec.ofNat 16 imageBase)))
  else s.answer .refused

/-- The command `Run` (R209, R220, R232): with no renderer it fails and leaves all state as it was. -/
def State.cmdRun (s : State) (rendererBound : Bool) : State :=
  if s.lstate = .ready then
    if rendererBound then { s with lstate := .running, status := .accepted }
    else s.answer (.failedWith .configurationError)
  else s.answer .refused

/-! ## The phases of a tick (R208) -/

/-- The word at PC: the byte at the lower address is the high byte (R53, R210). -/
def State.fetchWord (s : State) : Word :=
  wordOfBytes (Memory.read s.mem s.pc.toNat) (Memory.read s.mem (s.pc.toNat + 1))

/-- Phase 1's bounds check: `PC <= 4094` (R56, R210). -/
def State.fetchInBounds (s : State) : Bool := s.pc.toNat + 2 ≤ memBytes

/-- Phase 1, fetch: `IR <- {MEM[PC], MEM[PC+1]}` (R210); PC is not changed. -/
def State.fetched (s : State) : State := { s with ir := s.fetchWord }

/-- A timer's decrement: by 1 while nonzero, clamped at 0 (R213). -/
def decTimer (b : Byte) : Byte := if 0 < b.toNat then BitVec.ofNat 8 (b.toNat - 1) else b

/-- Phase 4, timer update (R213). -/
def State.timerUpdate (s : State) : State :=
  if s.tdiv + 1 = s.params.timerDivider then { s with tdiv := 0, dt := decTimer s.dt, st := decTimer s.st }
  else { s with tdiv := s.tdiv + 1 }

/-- Phase 5, present: the whole frame buffer is handed to the renderer (R214). -/
def State.present (s : State) : State := { s with fbOut := some s.fb }

/-- Phase 6, input refresh (R215). -/
def State.refreshKeys (s : State) : State := { s with keys := s.inputs.keysIn }

/-- Phase 7, cancellation check (R216). -/
def State.cancelCheck (s : State) : State :=
  if s.inputs.cancel then { s with lstate := .stopped, result := .cancelled } else s

/-- Phases 4 to 7.  A presentation failure ends the tick after phase 5 (R214). -/
def State.finishTick (s : State) : State :=
  if s.inputs.presentOk then s.timerUpdate.present.refreshKeys.cancelCheck
  else s.timerUpdate.present.takeFault .rendererError

/-- What follows the execute phase: a fault ends the tick at once (R217), otherwise phases 4 to 7 run, also
when FX0A held (R212). -/
def State.afterExecute (s : State) : State := if s.lstate = .failed then s else s.finishTick

/-- What follows the execute phase's answer. -/
def afterExecuteResult (r : StepResult) : StepResult :=
  match r with
  | .next t => .next t.afterExecute
  | .fault f => .fault f
  | .refused f => .refused f

/-- Phases 2 to 7, after the fetch: an illegal word ends the tick with `DecodeError(IR)` (R211). -/
def decodeAndRun (run : Instr → State → StepResult) (s : State) : StepResult :=
  match decode s.ir with
  | .ok i => afterExecuteResult (run i s)
  | .error _ => .next (s.takeFault (.decodeError s.ir))

/-- The seven phases of a tick (R208), `run` being the execute phase. -/
def tickWith (run : Instr → State → StepResult) (s : State) : StepResult :=
  if s.fetchInBounds then decodeAndRun run s.fetched
  else .next (s.takeFault (.memoryBoundsError s.pc))

/-- A tick starts: its inputs are those the host gives it, and it is accepted. -/
def State.beginTick (s : State) (inputs : TickInputs) : State := { s with inputs := inputs, status := .accepted }

/-- One event of the host (R201, R205, R220). -/
def hostEventWith (run : Instr → State → StepResult) (e : HostEvent) (s : State) : StepResult :=
  match e with
  | .initializeCmd => .next s.cmdInitialize
  | .loadCmd bytes => .next (s.cmdLoad bytes)
  | .runCmd rendererBound => .next (s.cmdRun rendererBound)
  | .tick inputs =>
    if s.lstate = .running then tickWith run (s.beginTick inputs) else .next (s.answer .refused)
  | .concurrentLaunch => .fault .concurrentLaunch

/-- The event is taken from the host's list. -/
def State.takeEvent (s : State) (rest : List HostEvent) : State := { s with host := rest }

/-- One step: the oldest event of the host; with none pending the CORE does nothing (R200, R249). -/
def stepWith (run : Instr → State → StepResult) (s : State) : StepResult :=
  match s.host with
  | [] => .next s
  | e :: rest => hostEventWith run e (s.takeEvent rest)

/-! ## Text of a decode error (R233) -/

/-- One upper-case hexadecimal digit. -/
def hexDigit (d : Nat) : Char := Char.ofNat (if d < 10 then 48 + d else 55 + d)

/-- R233: where text is wanted, the word as four upper-case hexadecimal digits. -/
def decodeErrorText (w : Word) : List Char :=
  [hexDigit (w.toNat / 4096 % 16), hexDigit (w.toNat / 256 % 16), hexDigit (w.toNat / 16 % 16),
   hexDigit (w.toNat % 16)]

/-! ## Placing one instruction for the next step -/

/-- Where the next step will fetch from: PC, or the entry point when PC is outside the address space. -/
def State.fetchPoint (s : State) : Word := if s.fetchInBounds then s.pc else entryPC

/-- `s` made to run the word `w` at its very next step: the word stands in memory where the fetch reads, the
loop is `Running`, and a tick with the inputs of `s` is the next event. -/
def State.placeWord (s : State) (w : Word) : State :=
  { s with
    pc := s.fetchPoint
    mem := Memory.writeBytes s.mem s.fetchPoint.toNat [hiByte w, loByte w]
    lstate := .running
    host := .tick s.inputs :: s.host }

end Sys2Proof.Machine
end

