-- ==== Sys2Proof/Safety.lean ====
section
/-! DEFINITION. The terms that claims about the machine use: the pieces of state one by one, what it means
that only some of them change, what a sprite covers, the legal transitions of the loop, and the invariants
of a machine state. -/

namespace Sys2Proof.Machine

/-- One piece of the state.  A register, a stack slot, a frame-buffer cell and a memory byte count singly. -/
inductive Part where
  | reg (r : Reg)
  | i
  | pc
  | sp
  | slot (k : Fin 16)
  | dt
  | st
  | ir
  | cell (c : Nat)
  | keys
  | byte (a : Nat)
  | lstate
  | result
  | tdiv
  | params
  | inputs
  | host
  | status
  | fbOut
  deriving DecidableEq, Repr

/-- The two states agree on one piece. -/
def Part.same (p : Part) (s t : State) : Prop :=
  match p with
  | .reg r => t.reg r = s.reg r
  | .i => t.i = s.i
  | .pc => t.pc = s.pc
  | .sp => t.sp = s.sp
  | .slot k => t.stack[k] = s.stack[k]
  | .dt => t.dt = s.dt
  | .st => t.st = s.st
  | .ir => t.ir = s.ir
  | .cell c => t.fb.cell c = s.fb.cell c
  | .keys => t.keys = s.keys
  | .byte a => Memory.read t.mem a = Memory.read s.mem a
  | .lstate => t.lstate = s.lstate
  | .result => t.result = s.result
  | .tdiv => t.tdiv = s.tdiv
  | .params => t.params = s.params
  | .inputs => t.inputs = s.inputs
  | .host => t.host = s.host
  | .status => t.status = s.status
  | .fbOut => t.fbOut = s.fbOut

/-- The frame: from `s` to `t` nothing changes but the listed pieces. -/
def OnlyChanges (parts : List Part) (s t : State) : Prop := ∀ p, p ∉ parts → p.same s t

/-- The bytes that a store of `n` bytes at `a` writes. -/
def storedBytes (a : Word) (n : Nat) : List Part := (accessRange a n).map Part.byte

/-- The registers V0 to VX. -/
def regsThrough (x : Reg) : List Part := ((List.finRange 16).filter fun r => r ≤ x).map Part.reg

/-- All cells of the frame buffer. -/
def allCells : List Part := (List.range (fbCols * fbRows)).map Part.cell

/-- `PC` moved on by `k`, `mod 65536` (R23). -/
def PcMovesBy (k : Nat) (s t : State) : Prop := t.pc.toNat = (s.pc.toNat + k) % 65536

/-- The same result at `t` as at `s`, carried through a function of the state. -/
def mapNext (f : State → State) (r : StepResult) : StepResult :=
  match r with
  | .next t => .next (f t)
  | .fault e => .fault e
  | .refused e => .refused e

/-- Cell (col, row) is one that DXYN toggles (R161, R164): some row r of the sprite has a 1 bit, c cells from
its left, that lands there under `DRAW_EDGE`. -/
def spriteCovers (s : State) (x y : Reg) (n col row : Nat) : Prop :=
  ∃ r c : Nat, r < n ∧ c < 8 ∧ (Memory.read s.mem (s.i.toNat + r)).getLsbD (7 - c) = true ∧
    (match s.params.drawEdge with
     | .wrap => ((s.reg x).toNat % 64 + c) % 64 = col ∧ ((s.reg y).toNat % 32 + r) % 32 = row
     | .clip => (s.reg x).toNat % 64 + c = col ∧ (s.reg y).toNat % 32 + r = row)

/-- Some cell that DXYN toggles is set before the draw. -/
def spriteCollides (s : State) (x y : Reg) (n : Nat) : Prop :=
  ∃ col row : Nat, col < 64 ∧ row < 32 ∧ spriteCovers s x y n col row ∧ s.fb.cell (64 * row + col) = true

/-- Some cell that DXYN toggles is clear before the draw. -/
def spriteSetsACell (s : State) (x y : Reg) (n : Nat) : Prop :=
  ∃ col row : Nat, col < 64 ∧ row < 32 ∧ spriteCovers s x y n col row ∧ s.fb.cell (64 * row + col) = false

/-! ## What each instruction may write -/

/-- A cell of the frame buffer. -/
def Part.isCell (p : Part) : Bool :=
  match p with
  | .cell _ => true
  | _ => false

/-- A byte of memory that a store of `n` bytes at `a` writes: one of `storedBytes a n`. -/
def Part.isStored (a : Word) (n : Nat) (p : Part) : Bool :=
  match p with
  | .byte b => (accessRange a n).contains b
  | _ => false

/-- The slot of the call stack with this number. -/
def Part.isSlotAt (n : Nat) (p : Part) : Bool :=
  match p with
  | .slot k => k.val = n
  | _ => false

/-- One of the registers V0 to VX. -/
def Part.isRegThrough (x : Reg) (p : Part) : Bool :=
  match p with
  | .reg r => r ≤ x
  | _ => false

/-- What taking a fault writes (R240). -/
def Part.isFaultEntry (p : Part) : Bool := p = .lstate || p = .result

/-- How many bytes of memory at I an instruction reads or writes (R57). -/
def bytesAtIndex (instr : Instr) : Nat :=
  match instr with
  | .drw _ _ n => n
  | .ldB _ => 3
  | .stRegs x => x.val + 1
  | .ldRegs x => x.val + 1
  | _ => 0

/-- The pieces of state that an instruction may change when it runs from `s` and completes or takes a fault, by the
lists of writers in the spec: V (R21, R22), PC (R23), I (R25), SP and STACK (R26, R29: a call writes the slot that
SP numbers), DT and ST (R27), FB (R30), MEM (R52: FX33 three bytes at I, FX55 X+1 bytes at I), LSTATE and RESULT
(R240).  No instruction writes IR, KEYS or TDIV (R28, R31, R35). -/
def mayWrite (s : State) (instr : Instr) (p : Part) : Bool :=
  match instr with
  | .cls => p = .pc || p.isCell
  | .ret => p = .pc || p = .sp || p.isFaultEntry
  | .jp _ => p = .pc
  | .call _ => p = .pc || p = .sp || p.isSlotAt s.sp.val || p.isFaultEntry
  | .seImm _ _ => p = .pc
  | .sneImm _ _ => p = .pc
  | .seReg _ _ => p = .pc
  | .ldImm x _ => p = .pc || p = .reg x
  | .addImm x _ => p = .pc || p = .reg x
  | .ldReg x _ => p = .pc || p = .reg x
  | .orReg x _ => p = .pc || p = .reg x
  | .andReg x _ => p = .pc || p = .reg x
  | .xorReg x _ => p = .pc || p = .reg x
  | .addReg x _ => p = .pc || p = .reg x || p = .reg regF
  | .subReg x _ => p = .pc || p = .reg x || p = .reg regF
  | .shr x _ => p = .pc || p = .reg x || p = .reg regF
  | .subnReg x _ => p = .pc || p = .reg x || p = .reg regF
  | .shl x _ => p = .pc || p = .reg x || p = .reg regF
  | .sneReg _ _ => p = .pc
  | .ldI _ => p = .pc || p = .i
  | .jpV0 _ => p = .pc
  | .rnd x _ => p = .pc || p = .reg x
  | .drw _ _ _ => p = .pc || p = .reg regF || p.isCell || p.isFaultEntry
  | .skp _ => p = .pc || p.isFaultEntry
  | .sknp _ => p = .pc || p.isFaultEntry
  | .ldVxDt x => p = .pc || p = .reg x
  | .ldVxK x => p = .pc || p = .reg x
  | .ldDtVx _ => p = .pc || p = .dt
  | .ldStVx _ => p = .pc || p = .st
  | .addI _ => p = .pc || p = .i
  | .ldF _ => p = .pc || p = .i || p.isFaultEntry
  | .ldB _ => p = .pc || p.isStored s.i (bytesAtIndex instr) || p.isFaultEntry
  | .stRegs _ => p = .pc || (s.params.indexIncrement && p = .i) || p.isStored s.i (bytesAtIndex instr) ||
      p.isFaultEntry
  | .ldRegs x => p = .pc || (s.params.indexIncrement && p = .i) || p.isRegThrough x || p.isFaultEntry

/-! ## The loop -/

/-- The rows of R205: what one event of the host may do to `LSTATE`. -/
def loopMove (e : HostEvent) (a b : LoopState) : Bool :=
  match e, a with
  | .initializeCmd, .uninitialized => b = .ready
  | .initializeCmd, .ready => b = .ready
  | .runCmd true, .ready => b = .running
  | .tick _, .running => b = .running || b = .stopped || b = .failed
  | _, _ => b = a

/-- R231, last column: the kinds that end the loop. -/
def FaultInfo.endsLoop (f : FaultInfo) : Bool :=
  match f with
  | .configurationError => false
  | .decodeError _ => true
  | .unimplementedOpcode _ => false
  | .memoryBoundsError _ => true
  | .rendererError => true
  | .loadError => false
  | .stackOverflow _ => true
  | .stackUnderflow _ => true
  | .operandRangeError _ => true

/-- R34: `RESULT` says how the loop ended exactly when it has ended. -/
def resultAgrees (l : LoopState) (r : LoopResult) : Bool :=
  match l, r with
  | .stopped, .cancelled => true
  | .failed, .fault f => f.endsLoop
  | .uninitialized, .none => true
  | .ready, .none => true
  | .running, .none => true
  | _, _ => false

/-- What every machine state satisfies: memory in its canonical form and inside the address space (R50), a
legal divider and counter (R6, R35), PC within what any instruction can produce (R24, R38), return addresses
that a fetched call can push (R102), and `RESULT` in agreement with `LSTATE` (R34). -/
structure State.Inv (s : State) : Prop where
  memWf : Memory.wf s.mem = true
  paramsWf : s.params.wf = true
  tdivLt : s.tdiv < s.params.timerDivider
  pcLe : s.pc.toNat ≤ 0x10FE
  stackLe : ∀ k : Fin 16, s.stack[k].toNat ≤ 0x1000
  outcome : resultAgrees s.lstate s.result = true

/-- Why a machine that holds the fault `f` in `RESULT` failed, in terms of the state it failed in: PC still
addresses the faulting instruction, and nothing it read has changed (R231, R240). -/
def FaultInfo.explainedBy (f : FaultInfo) (s : State) : Prop :=
  match f with
  | .decodeError w => s.ir = w ∧ w = s.fetchWord ∧ ∃ e, decode w = .error e
  | .memoryBoundsError a => (a = s.pc ∧ 4094 < s.pc.toNat) ∨
      (a = s.i ∧ ∃ i, decode s.ir = .ok i ∧ bytesAtIndex i ≠ 0 ∧ 4096 < s.i.toNat + bytesAtIndex i)
  | .stackOverflow a => a = s.pc ∧ s.sp = 16 ∧ ∃ nnn, decode s.ir = .ok (.call nnn)
  | .stackUnderflow a => a = s.pc ∧ s.sp = 0 ∧ decode s.ir = .ok .ret
  | .operandRangeError b => s.params.keyIndex = .fault ∧ 15 < b.toNat ∧ ∃ x : Reg, s.reg x = b ∧
      (decode s.ir = .ok (.skp x) ∨ decode s.ir = .ok (.sknp x) ∨ decode s.ir = .ok (.ldF x))
  | .rendererError => s.inputs.presentOk = false ∧ s.fbOut = some s.fb
  | .configurationError => False
  | .unimplementedOpcode _ => False
  | .loadError => False

/-- The final state shows why the run ended. -/
def State.causeShown (s : State) : Prop :=
  match s.result with
  | .none => True
  | .cancelled => s.inputs.cancel = true
  | .fault f => f.explainedBy s

/-! ## Boot -/

/-- A command of the host (and not a tick). -/
def HostEvent.isCommand (e : HostEvent) : Bool :=
  match e with
  | .initializeCmd => true
  | .loadCmd _ => true
  | .runCmd _ => true
  | .tick _ => false
  | .concurrentLaunch => false

/-- R205: the loop state after one command in the loop state `l`. -/
def loopAfterCommand (l : LoopState) (e : HostEvent) : LoopState :=
  match e with
  | .initializeCmd => if l = .uninitialized then .ready else l
  | .loadCmd _ => l
  | .runCmd rendererBound => if rendererBound && l = .ready then .running else l
  | .tick _ => l
  | .concurrentLaunch => l

/-- R207: a later image overwrites an earlier one where they overlap and leaves the rest of it in place. -/
def overlay (old new : List Byte) : List Byte := new ++ old.drop new.length

/-- The bytes that `Load` commands have written from 0x200 up, after one more command in the loop state `l`: a `Load`
that is accepted (R205) and fits (R58) lays its image over them, every other command leaves them. -/
def imageAfterCommand (l : LoopState) (image : List Byte) (e : HostEvent) : List Byte :=
  match e with
  | .initializeCmd => image
  | .loadCmd bytes =>
    if (l = .uninitialized || l = .ready) && 0x200 + bytes.length ≤ 4096 then overlay image bytes else image
  | .runCmd _ => image
  | .tick _ => image
  | .concurrentLaunch => image

/-- The bytes that `Load` commands have written from 0x200 up after a list of commands, from the loop state `l` with
`image` already written. -/
def imageAfterCommands (l : LoopState) (image : List Byte) (cmds : List HostEvent) : List Byte :=
  match cmds with
  | [] => image
  | e :: rest => imageAfterCommands (loopAfterCommand l e) (imageAfterCommand l image e) rest

/-- The state before the first tick of a machine with the parameters `p`, `image` being the bytes that `Load` commands
have written from 0x200 up (R260, R261, R265): everything 0 but for PC and the font, which `Initialize` sets, and the
image.  Memory is in its canonical form. -/
structure State.BootState (p : Params) (image : List Byte) (s : State) : Prop where
  params : s.params = p
  memWf : Memory.wf s.mem = true
  loop : s.lstate = .uninitialized ∨ s.lstate = .ready ∨ s.lstate = .running
  result : s.result = .none
  pc : s.pc = if s.lstate = .uninitialized then 0 else 0x200
  i : s.i = 0
  ir : s.ir = 0
  reg : ∀ r, s.reg r = 0
  sp : s.sp = 0
  stack : ∀ k : Fin 16, s.stack[k] = 0
  cell : ∀ c, c < 2048 → s.fb.cell c = false
  keys : s.keys = 0
  dt : s.dt = 0
  st : s.st = 0
  tdiv : s.tdiv = 0
  font : ∀ k : Fin 80, Memory.read s.mem (0x50 + k.val) = if s.lstate = .uninitialized then 0 else p.font[k]
  low : ∀ a, a < 0x200 → a < 0x50 ∨ 0x50 + 80 ≤ a → Memory.read s.mem a = 0
  image : ∀ k, Memory.read s.mem (0x200 + k) = image.getD k 0

end Sys2Proof.Machine
end

