-- ==== Sys2Proof/Certificates/Slice0/Obligations.lean ====
section
/-! DEFINITION. The statements for the provers, one definition each.  The first line of each docstring names the
rules of spec/ it rests on.  No statement fixes a parameter of 00_scope.md R6: each holds for every
setting, unless it says otherwise.  The premise `Memory.wf s.mem = true` of the statements about stores rules out
lists that are no memory (an address twice, addresses out of order): it is part of `State.Inv`, which
`ResetMeetsTheInvariant` and `StepKeepsTheInvariant` state. -/

open Sys2Proof Sys2Proof.Machine

/-! ## Decoding -/

/-- Decode and encode agree: every well-formed instruction, with every operand value, comes back from its
word. -/
def Obligations.DecodeInvertsEncode : Prop :=
  ∀ i : Instr, i.wellFormed = true → decode (encode i) = .ok i

/-- Each word has one meaning: whatever decodes is well formed, and its encoding is the word itself, so no bit of
a legal word is dropped (R77). -/
def Obligations.EncodeInvertsDecode : Prop :=
  ∀ (w : Word) (i : Instr), decode w = .ok i → i.wellFormed = true ∧ encode i = w

/-- R75: a word is legal exactly when it matches a row of the opcode map, and no two rows match one word. -/
def Obligations.DecodeAcceptsExactlyTheOpcodeMap : Prop :=
  (∀ w : Word, (∃ i, decode w = .ok i) ↔ ∃ row ∈ opcodeRows, w &&& row.mask = row.bits) ∧
  (∀ (w : Word) (i : Instr), decode w = .ok i → i.rowOf ∈ opcodeRows ∧ w &&& i.rowOf.mask = i.rowOf.bits) ∧
  (∀ w : Word, ∀ row ∈ opcodeRows, ∀ row' ∈ opcodeRows,
    w &&& row.mask = row.bits → w &&& row'.mask = row'.bits → row = row')

/-- 30_encoding.md section 5, classes (a) to (f): the illegal words, exhaustively, by family, low nibble and low byte. -/
def Obligations.IllegalWordsByFamily : Prop :=
  ∀ w : Word, (∃ e, decode w = .error e) ↔
    (w.toNat / 4096 = 0x0 ∧ w.toNat ≠ 0x00E0 ∧ w.toNat ≠ 0x00EE) ∨
    ((w.toNat / 4096 = 0x5 ∨ w.toNat / 4096 = 0x9) ∧ w.toNat % 16 ≠ 0) ∨
    (w.toNat / 4096 = 0x8 ∧ w.toNat % 16 ∈ [0x8, 0x9, 0xA, 0xB, 0xC, 0xD, 0xF]) ∨
    (w.toNat / 4096 = 0xE ∧ w.toNat % 256 ∉ [0x9E, 0xA1]) ∨
    (w.toNat / 4096 = 0xF ∧ w.toNat % 256 ∉ [0x07, 0x0A, 0x15, 0x18, 0x1E, 0x29, 0x33, 0x55, 0x65])

/-- A few words written out from the patterns of R78 decode to the instructions they stand for, and the spec's
own illegal word is rejected. -/
def Obligations.SampleWordsDecode : Prop :=
  decode 0b0110_0000_0000_0101 = .ok (.ldImm 0 0x05) ∧
  decode 0b1010_0000_0101_0000 = .ok (.ldI 0x050) ∧
  decode 0b0000_0000_1110_0000 = .ok .cls ∧
  decode 0b1000_1010_1011_0100 = .ok (.addReg 0xA 0xB) ∧
  decode 0b1101_0001_0010_0101 = .ok (.drw 1 2 5) ∧
  decode 0b1111_0111_0011_0011 = .ok (.ldB 7) ∧
  decode 0b1111_1111_1111_1111 = .error .illegalFamilyF

/-! ## Load, ALU and random instructions -/

/-- R122, R124: 6XNN loads the literal, 7XNN adds it `mod 256` with no flag; X = 15 is a register like any other. -/
def Obligations.ImmediateLoadAndAdd : Prop :=
  ∀ (x : Reg) (nn : Byte) (s : State),
    (∃ t, exec (.ldImm x nn) s = .next t ∧ t.reg x = nn ∧
      PcMovesBy 2 s t ∧ OnlyChanges [.reg x, .pc] s t) ∧
    (∃ t, exec (.addImm x nn) s = .next t ∧ (t.reg x).toNat = ((s.reg x).toNat + nn.toNat) % 256 ∧
      PcMovesBy 2 s t ∧ OnlyChanges [.reg x, .pc] s t)

/-- R125 to R128 for the results: 8XY0 copies, 8XY1, 8XY2, 8XY3 combine bit by bit.  That VF is not written unless X
names it is R123, which the spec marks as its own reading (decision D18). -/
def Obligations.CopyAndLogic : Prop :=
  ∀ (x y : Reg) (s : State),
    (∃ t, exec (.ldReg x y) s = .next t ∧ t.reg x = s.reg y ∧
      PcMovesBy 2 s t ∧ OnlyChanges [.reg x, .pc] s t) ∧
    (∃ t, exec (.orReg x y) s = .next t ∧
      (∀ b < 8, (t.reg x).getLsbD b = ((s.reg x).getLsbD b || (s.reg y).getLsbD b)) ∧
      PcMovesBy 2 s t ∧ OnlyChanges [.reg x, .pc] s t) ∧
    (∃ t, exec (.andReg x y) s = .next t ∧
      (∀ b < 8, (t.reg x).getLsbD b = ((s.reg x).getLsbD b && (s.reg y).getLsbD b)) ∧
      PcMovesBy 2 s t ∧ OnlyChanges [.reg x, .pc] s t) ∧
    (∃ t, exec (.xorReg x y) s = .next t ∧
      (∀ b < 8, (t.reg x).getLsbD b = ((s.reg x).getLsbD b != (s.reg y).getLsbD b)) ∧
      PcMovesBy 2 s t ∧ OnlyChanges [.reg x, .pc] s t)

/-- R129 for X other than 15: 8XY4 adds, and VF is 1 exactly when the sum is above 255.  That with X = 15 the carry is
what stays is R121 with conflict C5, which the spec marks as its own (decision D22). -/
def Obligations.AddWithCarryOut : Prop :=
  ∀ (x y : Reg) (s : State),
    ∃ t, exec (.addReg x y) s = .next t ∧
      (x ≠ regF → (t.reg x).toNat = ((s.reg x).toNat + (s.reg y).toNat) % 256) ∧
      (t.reg regF).toNat = (if 255 < (s.reg x).toNat + (s.reg y).toNat then 1 else 0) ∧
      PcMovesBy 2 s t ∧ OnlyChanges [.reg x, .reg regF, .pc] s t

/-- 8XY5 and 8XY7 (41_alu.md; decisions D19, D20, D22 of the spec): the difference `mod 256` in both operand
orders, VF the borrow or its negation by `SUB_FLAG`; with X = 15 the flag is what stays. -/
def Obligations.SubtractBothOrders : Prop :=
  ∀ (x y : Reg) (s : State),
    (∃ t, exec (.subReg x y) s = .next t ∧
      (x ≠ regF → ((t.reg x).toNat : Int) = ((s.reg x).toNat - (s.reg y).toNat : Int) % 256) ∧
      (s.params.subFlag = .borrow →
        (t.reg regF).toNat = (if (s.reg x).toNat < (s.reg y).toNat then 1 else 0)) ∧
      (s.params.subFlag = .notBorrow →
        (t.reg regF).toNat = (if (s.reg x).toNat < (s.reg y).toNat then 0 else 1)) ∧
      PcMovesBy 2 s t ∧ OnlyChanges [.reg x, .reg regF, .pc] s t) ∧
    (∃ t, exec (.subnReg x y) s = .next t ∧
      (x ≠ regF → ((t.reg x).toNat : Int) = ((s.reg y).toNat - (s.reg x).toNat : Int) % 256) ∧
      (s.params.subFlag = .borrow →
        (t.reg regF).toNat = (if (s.reg y).toNat < (s.reg x).toNat then 1 else 0)) ∧
      (s.params.subFlag = .notBorrow →
        (t.reg regF).toNat = (if (s.reg y).toNat < (s.reg x).toNat then 0 else 1)) ∧
      PcMovesBy 2 s t ∧ OnlyChanges [.reg x, .reg regF, .pc] s t)

/-- 8XY6 and 8XYE (41_alu.md; decisions D21, D22 of the spec): a logical shift by one of the register that
`SHIFT_SOURCE` names, VF the bit shifted out; with X = 15 that bit is what stays. -/
def Obligations.ShiftsByOne : Prop :=
  ∀ (x y : Reg) (s : State) (source : Byte),
    (s.params.shiftSource = .vx → source = s.reg x) →
    (s.params.shiftSource = .vy → source = s.reg y) →
    (∃ t, exec (.shr x y) s = .next t ∧
      (x ≠ regF → (t.reg x).toNat = source.toNat / 2) ∧ (t.reg regF).toNat = source.toNat % 2 ∧
      PcMovesBy 2 s t ∧ OnlyChanges [.reg x, .reg regF, .pc] s t) ∧
    (∃ t, exec (.shl x y) s = .next t ∧
      (x ≠ regF → (t.reg x).toNat = source.toNat * 2 % 256) ∧ (t.reg regF).toNat = source.toNat / 128 ∧
      PcMovesBy 2 s t ∧ OnlyChanges [.reg x, .reg regF, .pc] s t)

/-- CXNN (41_alu.md; decision D25 of the spec): VX is the tick's random input, masked, whatever that input is. -/
def Obligations.RandomIsMaskedInput : Prop :=
  ∀ (x : Reg) (nn : Byte) (s : State),
    ∃ t, exec (.rnd x nn) s = .next t ∧
      (∀ b < 8, (t.reg x).getLsbD b = (s.inputs.rnd.getLsbD b && nn.getLsbD b)) ∧
      PcMovesBy 2 s t ∧ OnlyChanges [.reg x, .pc] s t

/-! ## Control transfer -/

/-- R101: 1NNN replaces PC by NNN, whatever NNN is, and does nothing else. -/
def Obligations.JumpReplacesPC : Prop :=
  ∀ (nnn : BitVec 12) (s : State),
    ∃ t, exec (.jp nnn) s = .next t ∧ t.pc.toNat = nnn.toNat ∧ OnlyChanges [.pc] s t

/-- BNNN (40_flow.md; decisions D7, D23 of the spec): the sum of NNN and V0, not reduced to 12 bits, at most
0x10FE; the X digit selects nothing. -/
def Obligations.JumpWithOffset : Prop :=
  ∀ (nnn : BitVec 12) (s : State),
    ∃ t, exec (.jpV0 nnn) s = .next t ∧ t.pc.toNat = nnn.toNat + (s.reg 0).toNat ∧
      t.pc.toNat ≤ 0x10FE ∧ OnlyChanges [.pc] s t

/-- 2NNN (40_flow.md; decisions D15, D16 of the spec): with room on the stack it pushes PC + 2 and jumps; with 16
addresses stacked it takes `StackOverflow(PC)` and writes nothing else. -/
def Obligations.CallPushesOrOverflows : Prop :=
  ∀ (nnn : BitVec 12) (s : State),
    (∀ k : Fin 16, k.val = s.sp.val →
      ∃ t, exec (.call nnn) s = .next t ∧ t.stack[k].toNat = (s.pc.toNat + 2) % 65536 ∧
        t.sp.val = s.sp.val + 1 ∧ t.pc.toNat = nnn.toNat ∧ OnlyChanges [.pc, .sp, .slot k] s t) ∧
    (s.sp.val = 16 →
      ∃ t, exec (.call nnn) s = .next t ∧ t.lstate = .failed ∧ t.result = .fault (.stackOverflow s.pc) ∧
        OnlyChanges [.lstate, .result] s t)

/-- 00EE (40_flow.md; decisions D15, D16 of the spec): with an address stacked it loads the newest one into PC and
leaves the slot as it is; with none it takes `StackUnderflow(PC)` and writes nothing else. -/
def Obligations.ReturnPopsOrUnderflows : Prop :=
  ∀ s : State,
    (∀ k : Fin 16, k.val + 1 = s.sp.val →
      ∃ t, exec .ret s = .next t ∧ t.pc = s.stack[k] ∧ t.sp.val = k.val ∧ OnlyChanges [.pc, .sp] s t) ∧
    (s.sp.val = 0 →
      ∃ t, exec .ret s = .next t ∧ t.lstate = .failed ∧ t.result = .fault (.stackUnderflow s.pc) ∧
        OnlyChanges [.lstate, .result] s t)

/-- The source's property of calls (95_test_vectors.md S4, read by 90_conflicts.md C1): a return after a call
resumes at the call's address + 2 with the stack pointer back, whatever the code between did, as long as the stack
pointer is where the call left it and the one slot the call wrote (the slot SP numbered before the call) still holds
what it wrote.  Calls between that have returned are among what is covered: they write only higher slots, which
a pop leaves overwritten. -/
def Obligations.ReturnResumesAfterCall : Prop :=
  ∀ (nnn : BitVec 12) (s t u : State),
    s.sp.val < 16 → exec (.call nnn) s = .next t → u.sp = t.sp →
    (∀ k : Fin 16, k.val = s.sp.val → u.stack[k] = t.stack[k]) →
    ∃ w, exec .ret u = .next w ∧ w.pc.toNat = (s.pc.toNat + 2) % 65536 ∧ w.sp = s.sp

/-- 3XNN, 4XNN, 5XY0, 9XY0 (40_flow.md; decision D17 of the spec): +4 when the condition holds, else +2, and nothing
but PC changes; 3XNN and 4XNN, and 5XY0 and 9XY0, never both skip and never both fall through. -/
def Obligations.SkipsOnComparison : Prop :=
  ∀ (x y : Reg) (nn : Byte) (s : State),
    (∃ t, exec (.seImm x nn) s = .next t ∧ PcMovesBy (if s.reg x = nn then 4 else 2) s t ∧
      OnlyChanges [.pc] s t) ∧
    (∃ t, exec (.sneImm x nn) s = .next t ∧ PcMovesBy (if s.reg x = nn then 2 else 4) s t ∧
      OnlyChanges [.pc] s t) ∧
    (∃ t, exec (.seReg x y) s = .next t ∧ PcMovesBy (if s.reg x = s.reg y then 4 else 2) s t ∧
      OnlyChanges [.pc] s t) ∧
    (∃ t, exec (.sneReg x y) s = .next t ∧ PcMovesBy (if s.reg x = s.reg y then 2 else 4) s t ∧
      OnlyChanges [.pc] s t)

/-! ## Index register and memory -/

/-- R141: ANNN loads NNN, zero-extended, into I and changes nothing else but PC. -/
def Obligations.LoadIndex : Prop :=
  ∀ (nnn : BitVec 12) (s : State),
    ∃ t, exec (.ldI nnn) s = .next t ∧ t.i.toNat = nnn.toNat ∧ PcMovesBy 2 s t ∧ OnlyChanges [.i, .pc] s t

/-- FX1E (42_index_memory.md; decision D24 of the spec): I + VX `mod 65536`, no flag and no fault whatever the sum. -/
def Obligations.AddToIndex : Prop :=
  ∀ (x : Reg) (s : State),
    ∃ t, exec (.addI x) s = .next t ∧ t.i.toNat = (s.i.toNat + (s.reg x).toNat) % 65536 ∧
      PcMovesBy 2 s t ∧ OnlyChanges [.i, .pc] s t

/-- FX29 (42_index_memory.md; decision D31 of the spec): I is 0x50 + 5 times the low digit of VX; with VX above 15
under `KEY_INDEX = fault` it takes `OperandRangeError(VX)` and writes nothing else. -/
def Obligations.FontSpriteAddress : Prop :=
  ∀ (x : Reg) (s : State),
    (s.params.keyIndex = .mask ∨ (s.reg x).toNat ≤ 15 →
      ∃ t, exec (.ldF x) s = .next t ∧ t.i.toNat = 0x50 + 5 * ((s.reg x).toNat % 16) ∧
        PcMovesBy 2 s t ∧ OnlyChanges [.i, .pc] s t) ∧
    (s.params.keyIndex = .fault → 15 < (s.reg x).toNat →
      ∃ t, exec (.ldF x) s = .next t ∧ t.lstate = .failed ∧ t.result = .fault (.operandRangeError (s.reg x)) ∧
        OnlyChanges [.lstate, .result] s t)

/-- FX33 (42_index_memory.md; decision D32 of the spec): the three bytes at I are the decimal digits of VX, the
hundreds first; when they do not fit it takes `MemoryBoundsError(I)` and writes nothing else. -/
def Obligations.StoreDecimalDigits : Prop :=
  ∀ (x : Reg) (s : State),
    (Memory.wf s.mem = true → s.i.toNat + 3 ≤ 4096 →
      ∃ t h d o, exec (.ldB x) s = .next t ∧
        Memory.read t.mem s.i.toNat = h ∧ Memory.read t.mem (s.i.toNat + 1) = d ∧
        Memory.read t.mem (s.i.toNat + 2) = o ∧ h.toNat ≤ 2 ∧ d.toNat ≤ 9 ∧ o.toNat ≤ 9 ∧
        100 * h.toNat + 10 * d.toNat + o.toNat = (s.reg x).toNat ∧
        PcMovesBy 2 s t ∧ OnlyChanges (.pc :: storedBytes s.i 3) s t) ∧
    (4096 < s.i.toNat + 3 →
      ∃ t, exec (.ldB x) s = .next t ∧ t.lstate = .failed ∧ t.result = .fault (.memoryBoundsError s.i) ∧
        OnlyChanges [.lstate, .result] s t)

/-- FX55 (42_index_memory.md; decision D33 of the spec): V0 to VX go to memory at I upward, I moves by X + 1 exactly
under `INDEX_INCREMENT`; when they do not fit it takes `MemoryBoundsError(I)` and stores no byte. -/
def Obligations.StoreRegisters : Prop :=
  ∀ (x : Reg) (s : State),
    (Memory.wf s.mem = true → s.i.toNat + x.val + 1 ≤ 4096 →
      ∃ t, exec (.stRegs x) s = .next t ∧
        (∀ r : Reg, r ≤ x → Memory.read t.mem (s.i.toNat + r.val) = s.reg r) ∧
        t.i.toNat = (if s.params.indexIncrement then (s.i.toNat + x.val + 1) % 65536 else s.i.toNat) ∧
        PcMovesBy 2 s t ∧ OnlyChanges (.pc :: .i :: storedBytes s.i (x.val + 1)) s t) ∧
    (4096 < s.i.toNat + x.val + 1 →
      ∃ t, exec (.stRegs x) s = .next t ∧ t.lstate = .failed ∧ t.result = .fault (.memoryBoundsError s.i) ∧
        OnlyChanges [.lstate, .result] s t)

/-- FX65 (42_index_memory.md; decision D33 of the spec): V0 to VX are loaded from memory at I upward, the registers
above X and all of memory stay, I moves by X + 1 exactly under `INDEX_INCREMENT`; when the bytes are not all inside
memory it takes `MemoryBoundsError(I)` and loads no register. -/
def Obligations.LoadRegisters : Prop :=
  ∀ (x : Reg) (s : State),
    (s.i.toNat + x.val + 1 ≤ 4096 →
      ∃ t, exec (.ldRegs x) s = .next t ∧
        (∀ r : Reg, r ≤ x → t.reg r = Memory.read s.mem (s.i.toNat + r.val)) ∧
        t.i.toNat = (if s.params.indexIncrement then (s.i.toNat + x.val + 1) % 65536 else s.i.toNat) ∧
        PcMovesBy 2 s t ∧ OnlyChanges (.pc :: .i :: regsThrough x) s t) ∧
    (4096 < s.i.toNat + x.val + 1 →
      ∃ t, exec (.ldRegs x) s = .next t ∧ t.lstate = .failed ∧ t.result = .fault (.memoryBoundsError s.i) ∧
        OnlyChanges [.lstate, .result] s t)

/-- 20_memory.md, instruction-fetch coherence: registers stored over the next instruction are what the next fetch
reads. -/
def Obligations.StoredWordIsFetchedNext : Prop :=
  ∀ (x : Reg) (s t : State),
    Memory.wf s.mem = true → 1 ≤ x.val → s.i.toNat = s.pc.toNat + 2 → s.i.toNat + x.val + 1 ≤ 4096 →
    exec (.stRegs x) s = .next t →
    t.fetchInBounds = true ∧ t.fetchWord.toNat = 256 * (s.reg 0).toNat + (s.reg 1).toNat

/-! ## Display -/

/-- R163: 00E0 clears every cell, advances PC by 2 and changes nothing else, VF included. -/
def Obligations.ClearFrameBuffer : Prop :=
  ∀ s : State, ∃ t, exec .cls s = .next t ∧ (∀ c, c < 2048 → t.fb.cell c = false) ∧
    PcMovesBy 2 s t ∧ OnlyChanges (.pc :: allCells) s t

/-- DXYN (43_display.md; decisions D26, D27 of the spec): each cell is toggled exactly when the sprite covers it, VF is
1 exactly when some covered cell was set, and only the frame buffer, VF and PC change.  N = 0 is among the forms. -/
def Obligations.DrawTogglesCoveredCells : Prop :=
  ∀ (x y : Reg) (n : Nat) (s : State), n ≤ 15 → n = 0 ∨ s.i.toNat + n ≤ 4096 →
    ∃ t, exec (.drw x y n) s = .next t ∧
      (∀ col row : Nat, col < 64 → row < 32 →
        (spriteCovers s x y n col row → t.fb.cell (64 * row + col) = !s.fb.cell (64 * row + col)) ∧
        (¬ spriteCovers s x y n col row → t.fb.cell (64 * row + col) = s.fb.cell (64 * row + col))) ∧
      (spriteCollides s x y n → t.reg regF = 1) ∧ (¬ spriteCollides s x y n → t.reg regF = 0) ∧
      PcMovesBy 2 s t ∧ OnlyChanges (.pc :: .reg regF :: allCells) s t

/-- DXYN (43_display.md): with a row outside memory nothing is drawn, VF and PC stay, and the instruction takes
`MemoryBoundsError(I)`. -/
def Obligations.DrawOutOfBoundsFaults : Prop :=
  ∀ (x y : Reg) (n : Nat) (s : State), 0 < n → 4096 < s.i.toNat + n →
    ∃ t, exec (.drw x y n) s = .next t ∧ t.lstate = .failed ∧ t.result = .fault (.memoryBoundsError s.i) ∧
      OnlyChanges [.lstate, .result] s t

/-- 43_display.md, DXYN point (f): drawing the same sprite at the same place twice restores the frame buffer, and the
second draw sets VF exactly when some cell it covers was clear before the first.  The state `u` of the second
draw has the same sprite and the same position, also when VF is a coordinate. -/
def Obligations.DrawingTwiceRestores : Prop :=
  ∀ (x y : Reg) (n : Nat) (s t u w : State), n ≤ 15 → n = 0 ∨ s.i.toNat + n ≤ 4096 →
    exec (.drw x y n) s = .next t →
    u.fb = t.fb → u.mem = s.mem → u.i = s.i → u.params = s.params → u.reg x = s.reg x → u.reg y = s.reg y →
    exec (.drw x y n) u = .next w →
    w.fb = s.fb ∧ (spriteSetsACell s x y n → w.reg regF = 1) ∧ (¬ spriteSetsACell s x y n → w.reg regF = 0)

/-- R166: the delta lists exactly the cells that differ, each with its new value, in ascending order. -/
def Obligations.DeltaListsDifferences : Prop :=
  ∀ prev cur : FrameBuf,
    (∀ (i : Nat) (v : Bool), (i, v) ∈ delta prev cur ↔ i < 2048 ∧ prev.cell i ≠ cur.cell i ∧ v = cur.cell i) ∧
    (delta prev cur).Pairwise (fun a b => a.1 < b.1)

/-- 43_display.md, properties of `Delta`: at most 2048 pairs, none for identical snapshots, and applying them to the
previous snapshot gives the current one. -/
def Obligations.DeltaRebuildsTheFrame : Prop :=
  ∀ prev cur : FrameBuf,
    (delta prev cur).length ≤ 2048 ∧ (delta prev cur = [] ↔ prev = cur) ∧
    applyDelta prev (delta prev cur) = cur

/-! ## Keypad and timer instructions -/

/-- R182, R183: with k the key number that VX names, EX9E skips exactly when key k is down and EXA1 exactly when it
is up; nothing but PC changes. -/
def Obligations.KeySkips : Prop :=
  ∀ (x : Reg) (k : Fin 16) (s : State), hexOperand s.params.keyIndex (s.reg x) = some k →
    (∃ t, exec (.skp x) s = .next t ∧ PcMovesBy (if s.keys.getLsbD k.val then 4 else 2) s t ∧
      OnlyChanges [.pc] s t) ∧
    (∃ t, exec (.sknp x) s = .next t ∧ PcMovesBy (if s.keys.getLsbD k.val then 2 else 4) s t ∧
      OnlyChanges [.pc] s t)

/-- 44_keypad_timers.md, key number from a register (decision D28 of the spec): the low four bits under
`KEY_INDEX = mask`; under `KEY_INDEX = fault` a value above 15 makes EX9E and EXA1 take `OperandRangeError(VX)` and write
nothing else. -/
def Obligations.KeyNumberFromRegister : Prop :=
  ∀ (x : Reg) (s : State),
    (s.params.keyIndex = .mask ∨ (s.reg x).toNat ≤ 15 →
      ∃ k : Fin 16, hexOperand s.params.keyIndex (s.reg x) = some k ∧ k.val = (s.reg x).toNat % 16) ∧
    (s.params.keyIndex = .fault → 15 < (s.reg x).toNat →
      ∃ t, exec (.skp x) s = .next t ∧ exec (.sknp x) s = .next t ∧ t.lstate = .failed ∧
        t.result = .fault (.operandRangeError (s.reg x)) ∧ OnlyChanges [.lstate, .result] s t)

/-- FX0A (44_keypad_timers.md; decision D29 of the spec): with every key up it holds, with no change at all; else VX
is the lowest-numbered key that is down. -/
def Obligations.WaitForKey : Prop :=
  ∀ (x : Reg) (s : State),
    ((∀ k, k < 16 → s.keys.getLsbD k = false) → ∃ t, exec (.ldVxK x) s = .next t ∧ t = s) ∧
    (∀ k, k < 16 → s.keys.getLsbD k = true → (∀ j, j < k → s.keys.getLsbD j = false) →
      ∃ t, exec (.ldVxK x) s = .next t ∧ (t.reg x).toNat = k ∧ PcMovesBy 2 s t ∧ OnlyChanges [.reg x, .pc] s t)

/-- FX07, FX15, FX18 (44_keypad_timers.md; decision D30 of the spec): VX ← DT, DT ← VX, ST ← VX, each in the execute
phase, before the tick's timer update. -/
def Obligations.TimerTransfers : Prop :=
  ∀ (x : Reg) (s : State),
    (∃ t, exec (.ldVxDt x) s = .next t ∧ t.reg x = s.dt ∧ PcMovesBy 2 s t ∧ OnlyChanges [.reg x, .pc] s t) ∧
    (∃ t, exec (.ldDtVx x) s = .next t ∧ t.dt = s.reg x ∧ PcMovesBy 2 s t ∧ OnlyChanges [.dt, .pc] s t) ∧
    (∃ t, exec (.ldStVx x) s = .next t ∧ t.st = s.reg x ∧ PcMovesBy 2 s t ∧ OnlyChanges [.st, .pc] s t)

/-! ## All instructions -/

/-- No instruction writes a piece of state outside the spec's list of its writers, whether it completes, holds or
faults (10_state.md, the writers of each register, of STACK, FB, KEYS; 20_memory.md, who reaches memory), and every
instruction answers a next state.  Of memory FX33 changes at most the three bytes at I, FX55 the X + 1 bytes at I, the
addresses being those the stores use, and no other instruction any byte; of the stack 2NNN changes at most the slot that SP
numbers. -/
def Obligations.WritersAreThoseListed : Prop :=
  ∀ (i : Instr) (s : State), ∃ t, exec i s = .next t ∧
    ∀ p : Part, mayWrite s i p = false → p.same s t

/-- R240 (a) to (c), for the execute phase of every instruction: what it does is either no fault, with `LSTATE` and
`RESULT` as they were, or `Failed` with the fault in `RESULT` and every other piece of state as it was. -/
def Obligations.ExecuteIsAllOrNothing : Prop :=
  ∀ (i : Instr) (s t : State), exec i s = .next t →
    (t.lstate = s.lstate ∧ t.result = s.result) ∨
    (t.lstate = .failed ∧ (∃ f : FaultInfo, t.result = .fault f ∧ f.endsLoop = true) ∧
      OnlyChanges [.lstate, .result] s t)

/-- 46_execution_loop.md, inputs: of the four inputs of a tick the execute phase reads only `rnd`, and only CXNN
reads it; nor does any instruction read TDIV, IR, the pending events or the outputs. -/
def Obligations.ExecuteReadsNoHiddenState : Prop :=
  ∀ (i : Instr) (s : State) (inp : TickInputs) (k : Nat) (w : Word) (h : List HostEvent) (c : CmdStatus)
    (f : Option FrameBuf),
    (∀ x nn, i ≠ .rnd x nn) ∨ inp.rnd = s.inputs.rnd →
    exec i { s with inputs := inp, tdiv := k, ir := w, host := h, status := c, fbOut := f } =
      mapNext (fun t => { t with inputs := inp, tdiv := k, ir := w, host := h, status := c, fbOut := f }) (exec i s)

/-- 10_state.md, the sound timer: no instruction reads ST, and FX18 overwrites it whatever it held. -/
def Obligations.NoInstructionReadsSoundTimer : Prop :=
  (∀ (i : Instr) (s : State) (b : Byte), (∀ x, i ≠ .ldStVx x) →
    exec i { s with st := b } = mapNext (fun t => { t with st := b }) (exec i s)) ∧
  (∀ (x : Reg) (s : State) (b : Byte), exec (.ldStVx x) { s with st := b } = exec (.ldStVx x) s)

/-! ## The tick -/

/-- A step runs the decoded instruction (46_execution_loop.md, phases 1 to 3): with the loop running, a tick pending and a
legal word inside memory at PC, the step is `exec` of the decoded instruction in the state that has taken the
event, its inputs and the fetched word; then, when it did not fault, phases 4 to 7. -/
def Obligations.StepRunsTheDecodedInstruction : Prop :=
  ∀ (s : State) (inp : TickInputs) (rest : List HostEvent) (i : Instr) (w : Word),
    s.lstate = .running → s.host = .tick inp :: rest → s.pc.toNat ≤ 4094 →
    w = Memory.read s.mem s.pc.toNat ++ Memory.read s.mem (s.pc.toNat + 1) → decode w = .ok i →
    ∃ t, exec i { s with host := rest, inputs := inp, status := .accepted, ir := w } = .next t ∧
      (t.lstate = .failed → step s = .next t) ∧
      (t.lstate ≠ .failed → step s = .next t.finishTick)

/-- R210: a fetch from PC above 4094 ends the tick with `MemoryBoundsError(PC)`; nothing is fetched, IR keeps its
value, and no later phase runs; a fetch from any other PC writes IR with the two bytes, the lower address in bits 15:8,
and leaves PC as it is. -/
def Obligations.FetchReadsBigEndianOrFaults : Prop :=
  ∀ (s : State) (inp : TickInputs) (rest : List HostEvent),
    s.lstate = .running → s.host = .tick inp :: rest →
    (4094 < s.pc.toNat → ∃ t, step s = .next t ∧ t.lstate = .failed ∧
      t.result = .fault (.memoryBoundsError s.pc) ∧
      OnlyChanges [.lstate, .result, .host, .inputs, .status] s t) ∧
    (s.pc.toNat ≤ 4094 →
      s.fetched.ir.toNat =
        256 * (Memory.read s.mem s.pc.toNat).toNat + (Memory.read s.mem (s.pc.toNat + 1)).toNat ∧
      OnlyChanges [.ir] s s.fetched ∧ ∃ t, step s = .next t ∧ t.ir = s.fetched.ir)

/-- R211: a fetched word that is no instruction ends the tick with `DecodeError(IR)`; IR holds the word, and everything
else is as before the tick. -/
def Obligations.IllegalWordEndsTheTick : Prop :=
  ∀ (s : State) (inp : TickInputs) (rest : List HostEvent) (e : DecodeReject),
    s.lstate = .running → s.host = .tick inp :: rest → s.pc.toNat ≤ 4094 → decode s.fetchWord = .error e →
    ∃ t, step s = .next t ∧ t.lstate = .failed ∧ t.result = .fault (.decodeError s.fetchWord) ∧ t.ir = s.fetchWord ∧
      OnlyChanges [.lstate, .result, .ir, .host, .inputs, .status] s t

/-- R240, R217's order of events, for whole ticks: when the fault of a tick is not the renderer's, every piece of the
CORE's state but IR, `LSTATE` and `RESULT` is as before the tick, IR holds the fetched word or, when the fetch itself
faulted, its old value, and neither timers, presentation, keys nor cancellation happened. -/
def Obligations.InstructionFaultsArePrecise : Prop :=
  ∀ (s t : State) (f : FaultInfo), s.Inv → s.lstate = .running → step s = .next t →
    t.result = .fault f → f ≠ .rendererError →
    t.lstate = .failed ∧
    (s.pc.toNat ≤ 4094 → t.ir = s.fetchWord) ∧ (4094 < s.pc.toNat → t.ir = s.ir) ∧
    OnlyChanges [.ir, .lstate, .result, .host, .inputs, .status] s t

/-- 46_execution_loop.md, timer update (decision D34 of the spec): on every `TIMER_DIVIDER`-th execute phase both timers
go down by one, clamped at 0, and TDIV starts again at 0; on the others TDIV goes up by one and both timers stay. -/
def Obligations.TimerUpdateDividesTicks : Prop :=
  ∀ s t : State, t = s.finishTick →
    (s.tdiv + 1 = s.params.timerDivider →
      t.tdiv = 0 ∧ t.dt.toNat = s.dt.toNat - 1 ∧ t.st.toNat = s.st.toNat - 1) ∧
    (s.tdiv + 1 ≠ s.params.timerDivider → t.tdiv = s.tdiv + 1 ∧ t.dt = s.dt ∧ t.st = s.st)

/-- R215, with presentation before it and cancellation after it (46_execution_loop.md, phases 5 to 7): the frame of this
tick is handed over; a failed presentation ends the tick as `Failed` with `RendererError`, keys and cancellation not
looked at; else all sixteen key states are taken at once, and a raised `cancel` ends the loop as `Stopped`. -/
def Obligations.PresentRefreshCancel : Prop :=
  ∀ s t : State, t = s.finishTick →
    t.fbOut = some s.fb ∧
    (s.inputs.presentOk = false →
      t.lstate = .failed ∧ t.result = .fault .rendererError ∧ t.keys = s.keys ∧
      OnlyChanges [.tdiv, .dt, .st, .fbOut, .lstate, .result] s t) ∧
    (s.inputs.presentOk = true →
      (∀ k, k < 16 → t.keys.getLsbD k = s.inputs.keysIn.getLsbD k) ∧
      (s.inputs.cancel = true → t.lstate = .stopped ∧ t.result = .cancelled) ∧
      (s.inputs.cancel = false → t.lstate = s.lstate ∧ t.result = s.result) ∧
      OnlyChanges [.tdiv, .dt, .st, .fbOut, .keys, .lstate, .result] s t)

/-- The source's property of timers (95_test_vectors.md S7): over any step, unless an instruction sets the timer, it
goes down by at most one and never up. -/
def Obligations.TimersFallByAtMostOne : Prop :=
  ∀ s t : State, step s = .next t →
    ((∀ x, decode s.fetchWord ≠ .ok (.ldDtVx x)) →
      t.dt.toNat = s.dt.toNat ∨ t.dt.toNat + 1 = s.dt.toNat) ∧
    ((∀ x, decode s.fetchWord ≠ .ok (.ldStVx x)) →
      t.st.toNat = s.st.toNat ∨ t.st.toNat + 1 = s.st.toNat)

/-! ## The loop and its host -/

/-- R26: SP is the number of return addresses stacked; only 2NNN raises it and only 00EE lowers it, by one, and no
command of the host and no other event changes it. -/
def Obligations.StackPointerMovesOnlyByCallAndReturn : Prop :=
  ∀ s t : State, step s = .next t →
    t.sp = s.sp ∨
    (t.sp.val = s.sp.val + 1 ∧ ∃ nnn, decode s.fetchWord = .ok (.call nnn)) ∨
    (t.sp.val + 1 = s.sp.val ∧ decode s.fetchWord = .ok .ret)

/-- 46_execution_loop.md, the table of `LSTATE` transitions (decisions D4, D5 of the spec): one event of the host moves
the loop only along its rows. -/
def Obligations.LoopMovesOnlyAlongItsTable : Prop :=
  ∀ (s t : State) (e : HostEvent) (rest : List HostEvent), s.host = e :: rest → step s = .next t →
    loopMove e s.lstate t.lstate = true

/-- 46_execution_loop.md, `Initialize` (decision D3 of the spec; 95_test_vectors.md S2): in `Uninitialized` and `Ready` it
writes PC, I, IR, the font and `LSTATE`, and nothing else of the CORE; the image loaded earlier survives. -/
def Obligations.InitializeWritesFontAndRegisters : Prop :=
  ∀ (s : State) (rest : List HostEvent), Memory.wf s.mem = true → s.host = .initializeCmd :: rest →
    s.lstate = .uninitialized ∨ s.lstate = .ready →
    ∃ t, step s = .next t ∧ t.pc = 0x200 ∧ t.i = 0 ∧ t.ir = 0 ∧ t.lstate = .ready ∧ t.status = .accepted ∧
      (∀ k : Fin 80, Memory.read t.mem (0x50 + k.val) = s.params.font[k]) ∧
      OnlyChanges (.pc :: .i :: .ir :: .lstate :: .host :: .status :: storedBytes 0x50 80) s t

/-- R58, with `Load` of 46_execution_loop.md (95_test_vectors.md S1): an image that fits stands at 0x200 upward and every
other byte is as it was; one that does not fit answers `MemoryBoundsError` and writes nothing. -/
def Obligations.LoadCopiesTheImageOrNothing : Prop :=
  ∀ (s : State) (bytes : List Byte) (rest : List HostEvent), s.host = .loadCmd bytes :: rest →
    s.lstate = .uninitialized ∨ s.lstate = .ready →
    (Memory.wf s.mem = true → 0x200 + bytes.length ≤ 4096 →
      ∃ t, step s = .next t ∧ t.status = .accepted ∧
        (∀ (k : Nat) (h : k < bytes.length), Memory.read t.mem (0x200 + k) = bytes[k]) ∧
        OnlyChanges (.host :: .status :: storedBytes 0x200 bytes.length) s t) ∧
    (4096 < 0x200 + bytes.length →
      ∃ t, step s = .next t ∧ t.status = .failedWith (.memoryBoundsError 0x200) ∧
        OnlyChanges [.host, .status] s t)

/-- 46_execution_loop.md, `Run` (decision D5 of the spec): in `Ready` it starts the loop and writes nothing else of the
CORE; with no renderer it answers `ConfigurationError` and leaves everything as it was. -/
def Obligations.RunStartsTheLoopOrFails : Prop :=
  ∀ (s : State) (bound : Bool) (rest : List HostEvent), s.host = .runCmd bound :: rest → s.lstate = .ready →
    (bound = true → ∃ t, step s = .next t ∧ t.lstate = .running ∧ t.status = .accepted ∧
      OnlyChanges [.lstate, .host, .status] s t) ∧
    (bound = false → ∃ t, step s = .next t ∧ t.status = .failedWith .configurationError ∧
      OnlyChanges [.host, .status] s t)

/-- 46_execution_loop.md, refused commands (decision D4 of the spec): an event that the loop state has no row for changes
nothing and is answered `Refused`. -/
def Obligations.EventsOutOfPlaceAreRefused : Prop :=
  ∀ (s : State) (e : HostEvent) (rest : List HostEvent), s.host = e :: rest →
    (match e with
     | .initializeCmd => s.lstate = .running ∨ s.lstate = .stopped ∨ s.lstate = .failed
     | .loadCmd _ => s.lstate = .running ∨ s.lstate = .stopped ∨ s.lstate = .failed
     | .runCmd _ => s.lstate ≠ .ready
     | .tick _ => s.lstate ≠ .running
     | .concurrentLaunch => False) →
    ∃ t, step s = .next t ∧ t.status = .refused ∧ OnlyChanges [.host, .status] s t

/-- Once `Stopped` or `Failed`, no number of further steps changes the CORE: only the events are taken and
answered.  R242 says that there is no way to resume; that later commands and ticks change nothing is R219 and R220 (decision D4
of the spec). -/
def Obligations.StoppedAndFailedAreFinal : Prop :=
  ∀ (k : Nat) (s t : State), s.lstate = .stopped ∨ s.lstate = .failed → core.run k s = .next t →
    OnlyChanges [.host, .status] s t

/-- 46_execution_loop.md, host duties: the one event that the spec gives no meaning to stops the machine by name, and
nothing else does; with no event pending the CORE is idle, for any number of steps (60_exceptions.md, power). -/
def Obligations.OnlyConcurrentLaunchStops : Prop :=
  ∀ s : State,
    (∀ rest, s.host = .concurrentLaunch :: rest → step s = .fault .concurrentLaunch) ∧
    ((∀ rest, s.host ≠ .concurrentLaunch :: rest) → ∃ t, step s = .next t) ∧
    (s.host = [] → ∀ k, core.run k s = .next s)

/-- R265 (70_reset_and_hazards.md, boot): whatever commands the host issues after power-on, and in whatever order, if the
loop is then running, PC is 0x200, the font stands at 0x50, every byte from 0x200 up holds what the accepted `Load`
commands wrote there last or, where none wrote, 0, every other byte is 0, and every register, the stack, the frame
buffer, the keys and the timers hold 0.  The values 0 are the spec's own choice (decisions D2, D3). -/
def Obligations.StateAtFirstTick : Prop :=
  ∀ (p : Params) (cmds : List HostEvent) (t : State), (∀ e ∈ cmds, e.isCommand = true) →
    core.run cmds.length { State.powerOn p with host := cmds } = .next t → t.lstate = .running →
    t.pc = 0x200 ∧ t.i = 0 ∧ t.ir = 0 ∧ (∀ r, t.reg r = 0) ∧ t.sp = 0 ∧ (∀ k : Fin 16, t.stack[k] = 0) ∧
    (∀ c, c < 2048 → t.fb.cell c = false) ∧ t.keys = 0 ∧ t.dt = 0 ∧ t.st = 0 ∧ t.tdiv = 0 ∧ t.result = .none ∧
    (∀ k : Fin 80, Memory.read t.mem (0x50 + k.val) = p.font[k]) ∧
    (∀ a, a < 0x200 → a < 0x50 ∨ 0x50 + 80 ≤ a → Memory.read t.mem a = 0) ∧
    (∀ k, Memory.read t.mem (0x200 + k) = (imageAfterCommands .uninitialized [] cmds).getD k 0)

/-! ## Reset and invariants -/

/-- 70_reset_and_hazards.md, power-on (the values are the spec's own choice, decision D2): every piece of the CORE's state,
for every setting of the parameters, and `State.reset` is the machine with the defaults. -/
def Obligations.PowerOnState : Prop :=
  (∀ (p : Params) (s : State), s = State.powerOn p →
    (∀ a, Memory.read s.mem a = 0) ∧ (∀ r, s.reg r = 0) ∧ s.pc = 0 ∧ s.i = 0 ∧ s.ir = 0 ∧ s.sp = 0 ∧
    (∀ k : Fin 16, s.stack[k] = 0) ∧ (∀ c, c < 2048 → s.fb.cell c = false) ∧ s.keys = 0 ∧ s.dt = 0 ∧ s.st = 0 ∧
    s.tdiv = 0 ∧ s.lstate = .uninitialized ∧ s.result = .none ∧ s.params = p) ∧
  State.reset = State.powerOn defaultParams

/-- The invariant holds at reset. -/
def Obligations.ResetMeetsTheInvariant : Prop := State.reset.Inv

/-- Every step keeps the invariant: memory stays in its canonical form inside the address space, the divider counter
below the divider, PC at most 0x10FE, return addresses at most 0x1000, and `RESULT` in agreement with `LSTATE`. -/
def Obligations.StepKeepsTheInvariant : Prop :=
  ∀ s t : State, s.Inv → step s = .next t → t.Inv

/-- Every step keeps the final state truthful: once a run has ended, the state shows why, for each fault kind what
R231 says raises it, with PC still at the faulting instruction (R240). -/
def Obligations.FinalStateShowsItsCause : Prop :=
  ∀ s t : State, s.Inv → s.causeShown → step s = .next t → t.causeShown

/-- The state before the first tick holds at power-on, for every setting of the parameters, with no image (R260; the
values 0 are the spec's own choice, decision D2). -/
def Obligations.PowerOnIsTheBootState : Prop := ∀ p : Params, (State.powerOn p).BootState p []

/-- Every command of the host, accepted, failed or refused, keeps the state before the first tick and moves the loop as
the spec says (R265, with R206, R207, R209, R220): only `Initialize` changes PC and the font, only an accepted `Load`
that fits changes the image, by laying its bytes over it, and everything else stays 0 (decisions D2 to D6 of the
spec). -/
def Obligations.CommandsKeepTheBootState : Prop :=
  ∀ (p : Params) (image : List Byte) (s t : State) (e : HostEvent) (rest : List HostEvent),
    s.BootState p image → s.host = e :: rest → e.isCommand = true → step s = .next t →
    t.BootState p (imageAfterCommand s.lstate image e) ∧ t.lstate = loopAfterCommand s.lstate e
end

