-- ==== Sys2Proof/Laws/Decode.lean ====
section
/-! SUPPORT. The fields of a word that the encoder has put together, and what the two byte helpers give back. -/

namespace Sys2Proof

theorem wordOfBytes_toNat (hi lo : Byte) : (wordOfBytes hi lo).toNat = 256 * hi.toNat + lo.toNat := by
  simp only [wordOfBytes, BitVec.toNat_append]
  rw [← Nat.shiftLeft_add_eq_or_of_lt lo.isLt, Nat.shiftLeft_eq]
  omega

theorem hiByte_toNat (w : Word) : (hiByte w).toNat = w.toNat / 256 := by
  have := w.isLt
  simp only [hiByte, BitVec.extractLsb'_toNat, Nat.shiftRight_eq_div_pow]
  omega

theorem loByte_toNat (w : Word) : (loByte w).toNat = w.toNat % 256 := by
  simp [loByte, BitVec.extractLsb'_toNat]

@[simp] theorem wordOfBytes_bytes (w : Word) : wordOfBytes (hiByte w) (loByte w) = w := by
  apply BitVec.eq_of_toNat_eq
  rw [wordOfBytes_toNat, hiByte_toNat, loByte_toNat]
  omega

/-! ## The fields as numbers -/

theorem fieldF_toNat (w : Word) : (fieldF w).toNat = w.toNat / 4096 := by
  have := w.isLt
  simp only [fieldF, BitVec.extractLsb'_toNat, Nat.shiftRight_eq_div_pow]
  omega

theorem fieldX_val (w : Word) : (fieldX w).val = w.toNat / 256 % 16 := by
  simp [fieldX, Nat.shiftRight_eq_div_pow]

theorem fieldY_val (w : Word) : (fieldY w).val = w.toNat / 16 % 16 := by
  simp [fieldY, Nat.shiftRight_eq_div_pow]

theorem fieldN_eq (w : Word) : fieldN w = w.toNat % 16 := by
  simp [fieldN, BitVec.extractLsb'_toNat]

theorem fieldNN_toNat (w : Word) : (fieldNN w).toNat = w.toNat % 256 := by
  simp [fieldNN, BitVec.extractLsb'_toNat]

theorem fieldNNN_toNat (w : Word) : (fieldNNN w).toNat = w.toNat % 4096 := by
  simp [fieldNNN, BitVec.extractLsb'_toNat]

/-! ## The encoder's formats as numbers -/

theorem encodeNNN_toNat (f : BitVec 4) (nnn : BitVec 12) :
    (encodeNNN f nnn).toNat = 4096 * f.toNat + nnn.toNat := by
  simp only [encodeNNN, BitVec.toNat_append]
  rw [← Nat.shiftLeft_add_eq_or_of_lt nnn.isLt, Nat.shiftLeft_eq]
  omega

theorem regField_toNat (x : Reg) : (regField x).toNat = x.val := by
  have := x.isLt
  simp only [regField, BitVec.toNat_ofNat]
  omega

theorem encodeXNN_toNat (f : BitVec 4) (x : Reg) (nn : Byte) :
    (encodeXNN f x nn).toNat = 4096 * f.toNat + 256 * x.val + nn.toNat := by
  simp only [encodeXNN, BitVec.toNat_append]
  rw [← Nat.shiftLeft_add_eq_or_of_lt nn.isLt, ← Nat.shiftLeft_add_eq_or_of_lt (regField x).isLt, Nat.shiftLeft_eq,
    Nat.shiftLeft_eq, regField_toNat]
  omega

theorem encodeXYN_toNat (f : BitVec 4) (x y : Reg) (n : BitVec 4) :
    (encodeXYN f x y n).toNat = 4096 * f.toNat + 256 * x.val + 16 * y.val + n.toNat := by
  simp only [encodeXYN, wordOfNibbles, BitVec.toNat_append]
  rw [← Nat.shiftLeft_add_eq_or_of_lt n.isLt, ← Nat.shiftLeft_add_eq_or_of_lt (regField y).isLt,
    ← Nat.shiftLeft_add_eq_or_of_lt (regField x).isLt, Nat.shiftLeft_eq, Nat.shiftLeft_eq, Nat.shiftLeft_eq,
    regField_toNat, regField_toNat]
  omega

/-! ## The fields of the encoder's formats -/

@[simp] theorem fieldF_encodeNNN (f : BitVec 4) (nnn : BitVec 12) : fieldF (encodeNNN f nnn) = f := by
  apply BitVec.eq_of_toNat_eq
  have := nnn.isLt
  rw [fieldF_toNat, encodeNNN_toNat]
  omega

@[simp] theorem fieldNNN_encodeNNN (f : BitVec 4) (nnn : BitVec 12) : fieldNNN (encodeNNN f nnn) = nnn := by
  apply BitVec.eq_of_toNat_eq
  have := nnn.isLt
  rw [fieldNNN_toNat, encodeNNN_toNat]
  omega

@[simp] theorem fieldF_encodeXNN (f : BitVec 4) (x : Reg) (nn : Byte) : fieldF (encodeXNN f x nn) = f := by
  apply BitVec.eq_of_toNat_eq
  have := nn.isLt
  have := x.isLt
  rw [fieldF_toNat, encodeXNN_toNat]
  omega

@[simp] theorem fieldX_encodeXNN (f : BitVec 4) (x : Reg) (nn : Byte) : fieldX (encodeXNN f x nn) = x := by
  apply Fin.ext
  have := nn.isLt
  have := x.isLt
  have := f.isLt
  rw [fieldX_val, encodeXNN_toNat]
  omega

@[simp] theorem fieldNN_encodeXNN (f : BitVec 4) (x : Reg) (nn : Byte) : fieldNN (encodeXNN f x nn) = nn := by
  apply BitVec.eq_of_toNat_eq
  have := nn.isLt
  have := x.isLt
  rw [fieldNN_toNat, encodeXNN_toNat]
  omega

@[simp] theorem fieldF_encodeXYN (f : BitVec 4) (x y : Reg) (n : BitVec 4) : fieldF (encodeXYN f x y n) = f := by
  apply BitVec.eq_of_toNat_eq
  have := n.isLt
  have := x.isLt
  have := y.isLt
  rw [fieldF_toNat, encodeXYN_toNat]
  omega

@[simp] theorem fieldX_encodeXYN (f : BitVec 4) (x y : Reg) (n : BitVec 4) : fieldX (encodeXYN f x y n) = x := by
  apply Fin.ext
  have := n.isLt
  have := x.isLt
  have := y.isLt
  have := f.isLt
  rw [fieldX_val, encodeXYN_toNat]
  omega

@[simp] theorem fieldY_encodeXYN (f : BitVec 4) (x y : Reg) (n : BitVec 4) : fieldY (encodeXYN f x y n) = y := by
  apply Fin.ext
  have := n.isLt
  have := x.isLt
  have := y.isLt
  have := f.isLt
  rw [fieldY_val, encodeXYN_toNat]
  omega

@[simp] theorem fieldN_encodeXYN (f : BitVec 4) (x y : Reg) (n : BitVec 4) :
    fieldN (encodeXYN f x y n) = n.toNat := by
  have := n.isLt
  rw [fieldN_eq, encodeXYN_toNat]
  omega

/-! ## The four masks of the opcode map -/

theorem and_maskF000 (w : Word) : w &&& 0xF000#16 = fieldF w ++ 0#12 := by
  apply BitVec.eq_of_getLsbD_eq
  intro i hi
  interval_cases i <;>
    (simp only [BitVec.getLsbD_append, fieldF, BitVec.getLsbD_and, BitVec.getLsbD_extractLsb', BitVec.getLsbD_ofNat]
     simp [Nat.testBit])

theorem and_maskF00F (w : Word) : w &&& 0xF00F#16 = fieldF w ++ 0#8 ++ BitVec.ofNat 4 (fieldN w) := by
  apply BitVec.eq_of_getLsbD_eq
  intro i hi
  interval_cases i <;>
    (simp only [BitVec.getLsbD_append, fieldF, fieldN, BitVec.ofNat_toNat, BitVec.setWidth_eq, BitVec.getLsbD_and,
      BitVec.getLsbD_extractLsb', BitVec.getLsbD_ofNat]
     simp [Nat.testBit])

theorem and_maskF0FF (w : Word) : w &&& 0xF0FF#16 = fieldF w ++ 0#4 ++ fieldNN w := by
  apply BitVec.eq_of_getLsbD_eq
  intro i hi
  interval_cases i <;>
    (simp only [BitVec.getLsbD_append, fieldF, fieldNN, BitVec.getLsbD_and, BitVec.getLsbD_extractLsb',
      BitVec.getLsbD_ofNat]
     simp [Nat.testBit])

theorem and_maskF000_toNat (w : Word) : (w &&& 0xF000#16).toNat = w.toNat / 4096 * 4096 := by
  rw [and_maskF000, BitVec.toNat_append, ← Nat.shiftLeft_add_eq_or_of_lt (by simp), Nat.shiftLeft_eq, fieldF_toNat]
  simp

theorem and_maskF00F_toNat (w : Word) : (w &&& 0xF00F#16).toNat = w.toNat / 4096 * 4096 + w.toNat % 16 := by
  rw [and_maskF00F, BitVec.toNat_append, BitVec.toNat_append, ← Nat.shiftLeft_add_eq_or_of_lt (BitVec.isLt _),
    ← Nat.shiftLeft_add_eq_or_of_lt (by simp), Nat.shiftLeft_eq, Nat.shiftLeft_eq, fieldF_toNat, fieldN_eq]
  simp
  omega

theorem and_maskF0FF_toNat (w : Word) : (w &&& 0xF0FF#16).toNat = w.toNat / 4096 * 4096 + w.toNat % 256 := by
  rw [and_maskF0FF, BitVec.toNat_append, BitVec.toNat_append, ← Nat.shiftLeft_add_eq_or_of_lt (BitVec.isLt _),
    ← Nat.shiftLeft_add_eq_or_of_lt (by simp), Nat.shiftLeft_eq, Nat.shiftLeft_eq, fieldF_toNat, fieldNN_toNat]
  simp
  omega

end Sys2Proof
end

