-- ==== Sys2Proof/Laws/Memory.lean ====
section
/-! SUPPORT. The laws of memory: a read after a write, every other byte is left alone, every operation keeps the
canonical form, and memories in canonical form that read alike are equal. -/

namespace Sys2Proof.Machine

/-! ## Reading after writing -/

@[simp] theorem Memory.read_nil (a : Nat) : Memory.read [] a = 0 := rfl

/-- Below every listed address memory reads as an unlisted address. -/
theorem Memory.read_of_lt {m : Memory} {lo a : Nat} (h : Memory.canonicalFrom lo m = true) (ha : a < lo) :
    Memory.read m a = Memory.unlisted := by
  induction m generalizing lo with
  | nil => rfl
  | cons e rest ih =>
    obtain ⟨b, x⟩ := e
    simp only [Memory.canonicalFrom, Bool.and_eq_true, decide_eq_true_eq] at h
    obtain ⟨⟨⟨hb, -⟩, -⟩, hr⟩ := h
    simp only [Memory.read]
    rw [if_neg (by omega)]
    exact ih hr (by omega)

/-- What one stored byte does, for a memory in canonical form: a read at its address gives it, and every other
address reads as before. -/
theorem Memory.read_write_from {m : Memory} {lo : Nat} (h : Memory.canonicalFrom lo m = true) (a b : Nat) (x : Byte) :
    Memory.read (Memory.write m a x) b = if b = a then x else Memory.read m b := by
  induction m generalizing lo with
  | nil =>
    by_cases hx : x = Memory.unlisted
    · by_cases hb : b = a <;> simp [Memory.write, hx, hb, Memory.unlisted]
    · simp only [Memory.write, if_neg hx, Memory.read]
  | cons e rest ih =>
    obtain ⟨c, y⟩ := e
    simp only [Memory.canonicalFrom, Bool.and_eq_true, decide_eq_true_eq] at h
    obtain ⟨⟨⟨hc, -⟩, -⟩, hr⟩ := h
    have hlt : ∀ d, d ≤ c → Memory.read rest d = Memory.unlisted := fun d hd => Memory.read_of_lt hr (by omega)
    simp only [Memory.write]
    split
    · rename_i hac
      by_cases hb : b = a
      · subst hb
        split
        · rename_i hx
          simp only [Memory.read]
          rw [if_neg (by omega), hlt b (by omega), hx]
          simp
        · simp [Memory.read]
      · split <;> simp [Memory.read, hb]
    · split
      · rename_i hac
        subst hac
        by_cases hb : b = a
        · subst hb
          split
          · rename_i hx
            rw [hlt b (by omega), hx]
            simp
          · simp [Memory.read]
        · split <;> simp [Memory.read, hb]
      · rename_i hac hne
        simp only [Memory.read, ih hr]
        by_cases hb : b = c
        · subst hb
          rw [if_pos rfl, if_pos rfl, if_neg (fun e => hne e.symm)]
        · simp [hb]

/-- The canonical form from a higher address is the canonical form from a lower one. -/
theorem Memory.canonicalFrom_mono {m : Memory} {lo lo' : Nat} (h : Memory.canonicalFrom lo m = true) (hl : lo' ≤ lo) :
    Memory.canonicalFrom lo' m = true := by
  cases m with
  | nil => rfl
  | cons e rest =>
    obtain ⟨c, y⟩ := e
    simp only [Memory.canonicalFrom, Bool.and_eq_true, decide_eq_true_eq] at h ⊢
    obtain ⟨⟨⟨hc, hcm⟩, hy⟩, hr⟩ := h
    exact ⟨⟨⟨by omega, hcm⟩, hy⟩, hr⟩

/-- A write keeps the canonical form (for an address inside the address space). -/
theorem Memory.canonicalFrom_write {m : Memory} {lo a : Nat} (h : Memory.canonicalFrom lo m = true) (hlo : lo ≤ a)
    (ha : a < memBytes) (x : Byte) : Memory.canonicalFrom lo (Memory.write m a x) = true := by
  induction m generalizing lo with
  | nil =>
    simp only [Memory.write]
    split
    · rfl
    · rename_i hx
      simp [Memory.canonicalFrom, hlo, ha, hx]
  | cons e rest ih =>
    obtain ⟨c, y⟩ := e
    simp only [Memory.canonicalFrom, Bool.and_eq_true, decide_eq_true_eq] at h
    obtain ⟨⟨⟨hc, hcm⟩, hy⟩, hr⟩ := h
    simp only [Memory.write]
    split
    · rename_i hac
      split
      · simp [Memory.canonicalFrom, hc, hcm, hy, hr]
      · rename_i hx
        have hac' : a + 1 ≤ c := hac
        simp [Memory.canonicalFrom, hlo, ha, hx, hac', hcm, hy, hr]
    · split
      · rename_i hac
        subst hac
        split
        · exact Memory.canonicalFrom_mono hr (by omega)
        · rename_i hx
          simp [Memory.canonicalFrom, hc, hcm, hx, hr]
      · rename_i hac hne
        simp [Memory.canonicalFrom, hc, hcm, hy, ih hr (by omega)]

/-- A read after a write, for memory in canonical form. -/
theorem Memory.read_write {m : Memory} (h : Memory.wf m = true) (a b : Nat) (x : Byte) :
    Memory.read (Memory.write m a x) b = if b = a then x else Memory.read m b :=
  Memory.read_write_from h a b x

/-- A write inside the address space keeps the canonical form. -/
theorem Memory.wf_write {m : Memory} (h : Memory.wf m = true) {a : Nat} (ha : a < memBytes) (x : Byte) :
    Memory.wf (Memory.write m a x) = true :=
  Memory.canonicalFrom_write h (Nat.zero_le a) ha x

/-- A write leaves every other address as it was, whatever the form of the list. -/
theorem Memory.read_write_ne (m : Memory) {a b : Nat} (hb : b ≠ a) (x : Byte) :
    Memory.read (Memory.write m a x) b = Memory.read m b := by
  induction m with
  | nil =>
    simp only [Memory.write]
    split <;> simp [Memory.read, hb, Memory.unlisted]
  | cons e rest ih =>
    obtain ⟨c, y⟩ := e
    simp only [Memory.write]
    split
    · split <;> simp [Memory.read, hb]
    · split
      · rename_i hac
        subst hac
        split <;> simp [Memory.read, hb]
      · simp only [Memory.read, ih]

/-! ## Blocks of bytes -/

/-- A stored block leaves every address outside it as it was, whatever the form of the list. -/
theorem Memory.read_writeBytes_outside (m : Memory) {a b : Nat} {bytes : List Byte}
    (hb : b < a ∨ a + bytes.length ≤ b) : Memory.read (Memory.writeBytes m a bytes) b = Memory.read m b := by
  induction bytes generalizing m a with
  | nil => rfl
  | cons x rest ih =>
    simp only [List.length_cons] at hb
    rw [Memory.writeBytes, ih _ (by omega), Memory.read_write_ne m (by omega)]

/-- A block stored inside the address space keeps the canonical form. -/
theorem Memory.wf_writeBytes {m : Memory} (h : Memory.wf m = true) {a : Nat} {bytes : List Byte}
    (ha : a + bytes.length ≤ memBytes) : Memory.wf (Memory.writeBytes m a bytes) = true := by
  induction bytes generalizing m a with
  | nil => exact h
  | cons x rest ih =>
    simp only [List.length_cons] at ha
    exact ih (Memory.wf_write h (by omega) x) (by omega)

/-- What a stored block does: its bytes are read back where it stands, and every other address reads as
before. -/
theorem Memory.read_writeBytes {m : Memory} (h : Memory.wf m = true) {a : Nat} {bytes : List Byte}
    (ha : a + bytes.length ≤ memBytes) (b : Nat) :
    Memory.read (Memory.writeBytes m a bytes) b =
      if hb : a ≤ b ∧ b < a + bytes.length then bytes[b - a]'(by omega) else Memory.read m b := by
  induction bytes generalizing m a with
  | nil => simp [Memory.writeBytes]
  | cons x rest ih =>
    simp only [List.length_cons] at ha
    simp only [Memory.writeBytes, List.length_cons]
    rw [ih (Memory.wf_write h (by omega) x) (by omega), Memory.read_write h]
    by_cases hin : a + 1 ≤ b ∧ b < a + 1 + rest.length
    · rw [dif_pos hin, dif_pos (by omega)]
      obtain ⟨k, rfl⟩ : ∃ k, b = a + 1 + k := ⟨b - (a + 1), by omega⟩
      have e1 : a + 1 + k - (a + 1) = k := by omega
      have e2 : a + 1 + k - a = k + 1 := by omega
      simp [e1, e2]
    · rw [dif_neg hin]
      by_cases hab : b = a
      · subst hab
        rw [if_pos rfl, dif_pos (by omega)]
        simp
      · rw [if_neg hab, dif_neg (by omega)]

/-- The k-th byte of a stored block. -/
theorem Memory.read_stored {m : Memory} (h : Memory.wf m = true) {a : Nat} {bytes : List Byte}
    (ha : a + bytes.length ≤ memBytes) (k : Nat) (hk : k < bytes.length) :
    Memory.read (Memory.writeBytes m a bytes) (a + k) = bytes[k] := by
  rw [Memory.read_writeBytes h ha, dif_pos (by omega)]
  simp

/-- A byte outside a stored block. -/
theorem Memory.read_not_stored {m : Memory} (h : Memory.wf m = true) {a : Nat} {bytes : List Byte}
    (ha : a + bytes.length ≤ memBytes) {b : Nat} (hb : b < a ∨ a + bytes.length ≤ b) :
    Memory.read (Memory.writeBytes m a bytes) b = Memory.read m b := by
  rw [Memory.read_writeBytes h ha, dif_neg (by omega)]

/-- The k-th byte of a block that is read. -/
theorem Memory.getElem_readBytes (m : Memory) (a n k : Nat) (h : k < (Memory.readBytes m a n).length) :
    (Memory.readBytes m a n)[k] = Memory.read m (a + k) := by
  simp [Memory.readBytes]

@[simp] theorem Memory.length_readBytes (m : Memory) (a n : Nat) : (Memory.readBytes m a n).length = n := by
  simp [Memory.readBytes]

/-! ## The canonical form is canonical -/

/-- The lowest listed address of a memory in canonical form does not read as an unlisted one. -/
theorem Memory.read_head {lo a : Nat} {x : Byte} {rest : Memory}
    (h : Memory.canonicalFrom lo ((a, x) :: rest) = true) :
    Memory.read ((a, x) :: rest) a ≠ Memory.unlisted := by
  simp only [Memory.canonicalFrom, Bool.and_eq_true, decide_eq_true_eq] at h
  simpa [Memory.read] using h.1.2

theorem Memory.ext_from {m m' : Memory} {lo : Nat} (h : Memory.canonicalFrom lo m = true)
    (h' : Memory.canonicalFrom lo m' = true) (hr : ∀ a, Memory.read m a = Memory.read m' a) : m = m' := by
  induction m generalizing m' lo with
  | nil =>
    cases m' with
    | nil => rfl
    | cons e rest => exact absurd (hr e.1).symm (Memory.read_head h')
  | cons e rest ih =>
    obtain ⟨a, x⟩ := e
    cases m' with
    | nil => exact absurd (hr a) (Memory.read_head h)
    | cons e' rest' =>
      obtain ⟨b, y⟩ := e'
      have hh := Memory.read_head h
      have hh' := Memory.read_head h'
      simp only [Memory.canonicalFrom, Bool.and_eq_true, decide_eq_true_eq] at h h'
      obtain ⟨⟨⟨-, -⟩, -⟩, hc⟩ := h
      obtain ⟨⟨⟨-, -⟩, -⟩, hc'⟩ := h'
      have hab : a = b := by
        rcases Nat.lt_trichotomy a b with hlt | heq | hgt
        · refine absurd ?_ hh
          rw [hr a]
          simp only [Memory.read]
          rw [if_neg (by omega)]
          exact Memory.read_of_lt hc' (by omega)
        · exact heq
        · refine absurd ?_ hh'
          rw [← hr b]
          simp only [Memory.read]
          rw [if_neg (by omega)]
          exact Memory.read_of_lt hc (by omega)
      subst hab
      have hxy : x = y := by simpa [Memory.read] using hr a
      subst hxy
      have hrest : rest = rest' := by
        refine ih hc hc' fun c => ?_
        by_cases hca : c = a
        · subst hca
          rw [Memory.read_of_lt hc (by omega), Memory.read_of_lt hc' (by omega)]
        · simpa [Memory.read, hca] using hr c
      rw [hrest]

/-- Memories in canonical form that read alike are equal. -/
theorem Memory.ext_of_wf {m m' : Memory} (h : Memory.wf m = true) (h' : Memory.wf m' = true)
    (hr : ∀ a, Memory.read m a = Memory.read m' a) : m = m' :=
  Memory.ext_from h h' hr

/-- The memory of `State.reset` is in canonical form. -/
theorem Memory.wf_powerOn (p : Params) : Memory.wf (State.powerOn p).mem = true := rfl

end Sys2Proof.Machine
end

