-- ==== Sys2Proof/Laws/State.lean ====
section
/-! SUPPORT. For each update of the state, what every field is afterwards: true by unfolding the update once, and
tagged for simp, so that no later proof unfolds a record update.  A field that an update does not touch is
listed too. -/

namespace Sys2Proof.Machine

@[simp] theorem State.reg_setReg (s : State) (x r : Reg) (b : Byte) :
    (s.setReg x b).reg r = if r = x then b else s.reg r := by
  simp only [State.reg, State.setReg]
  by_cases h : r = x
  · subst h; simp
  · have : x.val ≠ r.val := fun e => h (Fin.ext e.symm)
    simp [h, this]

@[simp] theorem State.reg_setResultAndFlag (s : State) (x r : Reg) (a b : Byte) :
    (s.setResultAndFlag x a b).reg r = if r = regF then b else if r = x then a else s.reg r := by
  simp [State.setResultAndFlag]

@[simp] theorem State.setReg_fields (s : State) (x : Reg) (b : Byte) :
    (s.setReg x b).v = s.v.set x b ∧ (s.setReg x b).i = s.i ∧ (s.setReg x b).pc = s.pc ∧
    (s.setReg x b).sp = s.sp ∧ (s.setReg x b).stack = s.stack ∧ (s.setReg x b).dt = s.dt ∧
    (s.setReg x b).st = s.st ∧ (s.setReg x b).ir = s.ir ∧ (s.setReg x b).fb = s.fb ∧
    (s.setReg x b).keys = s.keys ∧ (s.setReg x b).mem = s.mem ∧ (s.setReg x b).lstate = s.lstate ∧
    (s.setReg x b).result = s.result ∧ (s.setReg x b).tdiv = s.tdiv ∧ (s.setReg x b).params = s.params ∧
    (s.setReg x b).inputs = s.inputs ∧ (s.setReg x b).host = s.host ∧ (s.setReg x b).status = s.status ∧
    (s.setReg x b).fbOut = s.fbOut :=
  ⟨rfl, rfl, rfl, rfl, rfl, rfl, rfl, rfl, rfl, rfl, rfl, rfl, rfl, rfl, rfl, rfl, rfl, rfl, rfl⟩

@[simp] theorem State.setResultAndFlag_fields (s : State) (x : Reg) (a b : Byte) :
    (s.setResultAndFlag x a b).i = s.i ∧ (s.setResultAndFlag x a b).pc = s.pc ∧
    (s.setResultAndFlag x a b).sp = s.sp ∧ (s.setResultAndFlag x a b).stack = s.stack ∧
    (s.setResultAndFlag x a b).dt = s.dt ∧ (s.setResultAndFlag x a b).st = s.st ∧
    (s.setResultAndFlag x a b).ir = s.ir ∧ (s.setResultAndFlag x a b).fb = s.fb ∧
    (s.setResultAndFlag x a b).keys = s.keys ∧ (s.setResultAndFlag x a b).mem = s.mem ∧
    (s.setResultAndFlag x a b).lstate = s.lstate ∧ (s.setResultAndFlag x a b).result = s.result ∧
    (s.setResultAndFlag x a b).tdiv = s.tdiv ∧ (s.setResultAndFlag x a b).params = s.params ∧
    (s.setResultAndFlag x a b).inputs = s.inputs ∧ (s.setResultAndFlag x a b).host = s.host ∧
    (s.setResultAndFlag x a b).status = s.status ∧ (s.setResultAndFlag x a b).fbOut = s.fbOut :=
  ⟨rfl, rfl, rfl, rfl, rfl, rfl, rfl, rfl, rfl, rfl, rfl, rfl, rfl, rfl, rfl, rfl, rfl, rfl⟩

@[simp] theorem State.setIndex_fields (s : State) (w : Word) :
    (s.setIndex w).v = s.v ∧ (s.setIndex w).i = w ∧ (s.setIndex w).pc = s.pc ∧ (s.setIndex w).sp = s.sp ∧
    (s.setIndex w).stack = s.stack ∧ (s.setIndex w).dt = s.dt ∧ (s.setIndex w).st = s.st ∧
    (s.setIndex w).ir = s.ir ∧ (s.setIndex w).fb = s.fb ∧ (s.setIndex w).keys = s.keys ∧
    (s.setIndex w).mem = s.mem ∧ (s.setIndex w).lstate = s.lstate ∧ (s.setIndex w).result = s.result ∧
    (s.setIndex w).tdiv = s.tdiv ∧ (s.setIndex w).params = s.params ∧ (s.setIndex w).inputs = s.inputs ∧
    (s.setIndex w).host = s.host ∧ (s.setIndex w).status = s.status ∧ (s.setIndex w).fbOut = s.fbOut :=
  ⟨rfl, rfl, rfl, rfl, rfl, rfl, rfl, rfl, rfl, rfl, rfl, rfl, rfl, rfl, rfl, rfl, rfl, rfl, rfl⟩

@[simp] theorem State.setPC_fields (s : State) (w : Word) :
    (s.setPC w).v = s.v ∧ (s.setPC w).i = s.i ∧ (s.setPC w).pc = w ∧ (s.setPC w).sp = s.sp ∧
    (s.setPC w).stack = s.stack ∧ (s.setPC w).dt = s.dt ∧ (s.setPC w).st = s.st ∧ (s.setPC w).ir = s.ir ∧
    (s.setPC w).fb = s.fb ∧ (s.setPC w).keys = s.keys ∧ (s.setPC w).mem = s.mem ∧
    (s.setPC w).lstate = s.lstate ∧ (s.setPC w).result = s.result ∧ (s.setPC w).tdiv = s.tdiv ∧
    (s.setPC w).params = s.params ∧ (s.setPC w).inputs = s.inputs ∧ (s.setPC w).host = s.host ∧
    (s.setPC w).status = s.status ∧ (s.setPC w).fbOut = s.fbOut :=
  ⟨rfl, rfl, rfl, rfl, rfl, rfl, rfl, rfl, rfl, rfl, rfl, rfl, rfl, rfl, rfl, rfl, rfl, rfl, rfl⟩

@[simp] theorem State.advance_fields (s : State) :
    s.advance.v = s.v ∧ s.advance.i = s.i ∧ s.advance.pc = addWord s.pc 2 ∧ s.advance.sp = s.sp ∧
    s.advance.stack = s.stack ∧ s.advance.dt = s.dt ∧ s.advance.st = s.st ∧ s.advance.ir = s.ir ∧
    s.advance.fb = s.fb ∧ s.advance.keys = s.keys ∧ s.advance.mem = s.mem ∧ s.advance.lstate = s.lstate ∧
    s.advance.result = s.result ∧ s.advance.tdiv = s.tdiv ∧ s.advance.params = s.params ∧
    s.advance.inputs = s.inputs ∧ s.advance.host = s.host ∧ s.advance.status = s.status ∧
    s.advance.fbOut = s.fbOut :=
  ⟨rfl, rfl, rfl, rfl, rfl, rfl, rfl, rfl, rfl, rfl, rfl, rfl, rfl, rfl, rfl, rfl, rfl, rfl, rfl⟩

@[simp] theorem State.skipIf_fields (s : State) (c : Bool) :
    (s.skipIf c).v = s.v ∧ (s.skipIf c).i = s.i ∧ (s.skipIf c).pc = addWord s.pc (if c then 4 else 2) ∧
    (s.skipIf c).sp = s.sp ∧ (s.skipIf c).stack = s.stack ∧ (s.skipIf c).dt = s.dt ∧
    (s.skipIf c).st = s.st ∧ (s.skipIf c).ir = s.ir ∧ (s.skipIf c).fb = s.fb ∧ (s.skipIf c).keys = s.keys ∧
    (s.skipIf c).mem = s.mem ∧ (s.skipIf c).lstate = s.lstate ∧ (s.skipIf c).result = s.result ∧
    (s.skipIf c).tdiv = s.tdiv ∧ (s.skipIf c).params = s.params ∧ (s.skipIf c).inputs = s.inputs ∧
    (s.skipIf c).host = s.host ∧ (s.skipIf c).status = s.status ∧ (s.skipIf c).fbOut = s.fbOut :=
  ⟨rfl, rfl, rfl, rfl, rfl, rfl, rfl, rfl, rfl, rfl, rfl, rfl, rfl, rfl, rfl, rfl, rfl, rfl, rfl⟩

@[simp] theorem State.takeFault_fields (s : State) (f : FaultInfo) :
    (s.takeFault f).v = s.v ∧ (s.takeFault f).i = s.i ∧ (s.takeFault f).pc = s.pc ∧
    (s.takeFault f).sp = s.sp ∧ (s.takeFault f).stack = s.stack ∧ (s.takeFault f).dt = s.dt ∧
    (s.takeFault f).st = s.st ∧ (s.takeFault f).ir = s.ir ∧ (s.takeFault f).fb = s.fb ∧
    (s.takeFault f).keys = s.keys ∧ (s.takeFault f).mem = s.mem ∧ (s.takeFault f).lstate = .failed ∧
    (s.takeFault f).result = .fault f ∧ (s.takeFault f).tdiv = s.tdiv ∧ (s.takeFault f).params = s.params ∧
    (s.takeFault f).inputs = s.inputs ∧ (s.takeFault f).host = s.host ∧ (s.takeFault f).status = s.status ∧
    (s.takeFault f).fbOut = s.fbOut :=
  ⟨rfl, rfl, rfl, rfl, rfl, rfl, rfl, rfl, rfl, rfl, rfl, rfl, rfl, rfl, rfl, rfl, rfl, rfl, rfl⟩

@[simp] theorem State.storeAtIndex_fields (s : State) (bytes : List Byte) :
    (s.storeAtIndex bytes).v = s.v ∧ (s.storeAtIndex bytes).i = s.i ∧ (s.storeAtIndex bytes).pc = s.pc ∧
    (s.storeAtIndex bytes).sp = s.sp ∧ (s.storeAtIndex bytes).stack = s.stack ∧
    (s.storeAtIndex bytes).dt = s.dt ∧ (s.storeAtIndex bytes).st = s.st ∧
    (s.storeAtIndex bytes).ir = s.ir ∧ (s.storeAtIndex bytes).fb = s.fb ∧
    (s.storeAtIndex bytes).keys = s.keys ∧
    (s.storeAtIndex bytes).mem = Memory.writeBytes s.mem s.i.toNat bytes ∧
    (s.storeAtIndex bytes).lstate = s.lstate ∧ (s.storeAtIndex bytes).result = s.result ∧
    (s.storeAtIndex bytes).tdiv = s.tdiv ∧ (s.storeAtIndex bytes).params = s.params ∧
    (s.storeAtIndex bytes).inputs = s.inputs ∧ (s.storeAtIndex bytes).host = s.host ∧
    (s.storeAtIndex bytes).status = s.status ∧ (s.storeAtIndex bytes).fbOut = s.fbOut :=
  ⟨rfl, rfl, rfl, rfl, rfl, rfl, rfl, rfl, rfl, rfl, rfl, rfl, rfl, rfl, rfl, rfl, rfl, rfl, rfl⟩

@[simp] theorem State.loadRegsUpTo_fields (s : State) (x : Reg) :
    (s.loadRegsUpTo x).i = s.i ∧ (s.loadRegsUpTo x).pc = s.pc ∧ (s.loadRegsUpTo x).sp = s.sp ∧
    (s.loadRegsUpTo x).stack = s.stack ∧ (s.loadRegsUpTo x).dt = s.dt ∧ (s.loadRegsUpTo x).st = s.st ∧
    (s.loadRegsUpTo x).ir = s.ir ∧ (s.loadRegsUpTo x).fb = s.fb ∧ (s.loadRegsUpTo x).keys = s.keys ∧
    (s.loadRegsUpTo x).mem = s.mem ∧ (s.loadRegsUpTo x).lstate = s.lstate ∧
    (s.loadRegsUpTo x).result = s.result ∧ (s.loadRegsUpTo x).tdiv = s.tdiv ∧
    (s.loadRegsUpTo x).params = s.params ∧ (s.loadRegsUpTo x).inputs = s.inputs ∧
    (s.loadRegsUpTo x).host = s.host ∧ (s.loadRegsUpTo x).status = s.status ∧
    (s.loadRegsUpTo x).fbOut = s.fbOut := by
  simp [State.loadRegsUpTo]

@[simp] theorem State.setFrame_fields (s : State) (fb : FrameBuf) :
    (s.setFrame fb).v = s.v ∧ (s.setFrame fb).i = s.i ∧ (s.setFrame fb).pc = s.pc ∧
    (s.setFrame fb).sp = s.sp ∧ (s.setFrame fb).stack = s.stack ∧ (s.setFrame fb).dt = s.dt ∧
    (s.setFrame fb).st = s.st ∧ (s.setFrame fb).ir = s.ir ∧ (s.setFrame fb).fb = fb ∧
    (s.setFrame fb).keys = s.keys ∧ (s.setFrame fb).mem = s.mem ∧ (s.setFrame fb).lstate = s.lstate ∧
    (s.setFrame fb).result = s.result ∧ (s.setFrame fb).tdiv = s.tdiv ∧ (s.setFrame fb).params = s.params ∧
    (s.setFrame fb).inputs = s.inputs ∧ (s.setFrame fb).host = s.host ∧ (s.setFrame fb).status = s.status ∧
    (s.setFrame fb).fbOut = s.fbOut :=
  ⟨rfl, rfl, rfl, rfl, rfl, rfl, rfl, rfl, rfl, rfl, rfl, rfl, rfl, rfl, rfl, rfl, rfl, rfl, rfl⟩

@[simp] theorem State.setDelay_fields (s : State) (b : Byte) :
    (s.setDelay b).v = s.v ∧ (s.setDelay b).i = s.i ∧ (s.setDelay b).pc = s.pc ∧ (s.setDelay b).sp = s.sp ∧
    (s.setDelay b).stack = s.stack ∧ (s.setDelay b).dt = b ∧ (s.setDelay b).st = s.st ∧
    (s.setDelay b).ir = s.ir ∧ (s.setDelay b).fb = s.fb ∧ (s.setDelay b).keys = s.keys ∧
    (s.setDelay b).mem = s.mem ∧ (s.setDelay b).lstate = s.lstate ∧ (s.setDelay b).result = s.result ∧
    (s.setDelay b).tdiv = s.tdiv ∧ (s.setDelay b).params = s.params ∧ (s.setDelay b).inputs = s.inputs ∧
    (s.setDelay b).host = s.host ∧ (s.setDelay b).status = s.status ∧ (s.setDelay b).fbOut = s.fbOut :=
  ⟨rfl, rfl, rfl, rfl, rfl, rfl, rfl, rfl, rfl, rfl, rfl, rfl, rfl, rfl, rfl, rfl, rfl, rfl, rfl⟩

@[simp] theorem State.setSound_fields (s : State) (b : Byte) :
    (s.setSound b).v = s.v ∧ (s.setSound b).i = s.i ∧ (s.setSound b).pc = s.pc ∧ (s.setSound b).sp = s.sp ∧
    (s.setSound b).stack = s.stack ∧ (s.setSound b).dt = s.dt ∧ (s.setSound b).st = b ∧
    (s.setSound b).ir = s.ir ∧ (s.setSound b).fb = s.fb ∧ (s.setSound b).keys = s.keys ∧
    (s.setSound b).mem = s.mem ∧ (s.setSound b).lstate = s.lstate ∧ (s.setSound b).result = s.result ∧
    (s.setSound b).tdiv = s.tdiv ∧ (s.setSound b).params = s.params ∧ (s.setSound b).inputs = s.inputs ∧
    (s.setSound b).host = s.host ∧ (s.setSound b).status = s.status ∧ (s.setSound b).fbOut = s.fbOut :=
  ⟨rfl, rfl, rfl, rfl, rfl, rfl, rfl, rfl, rfl, rfl, rfl, rfl, rfl, rfl, rfl, rfl, rfl, rfl, rfl⟩

@[simp] theorem State.answer_fields (s : State) (c : CmdStatus) :
    (s.answer c).v = s.v ∧ (s.answer c).i = s.i ∧ (s.answer c).pc = s.pc ∧ (s.answer c).sp = s.sp ∧
    (s.answer c).stack = s.stack ∧ (s.answer c).dt = s.dt ∧ (s.answer c).st = s.st ∧
    (s.answer c).ir = s.ir ∧ (s.answer c).fb = s.fb ∧ (s.answer c).keys = s.keys ∧
    (s.answer c).mem = s.mem ∧ (s.answer c).lstate = s.lstate ∧ (s.answer c).result = s.result ∧
    (s.answer c).tdiv = s.tdiv ∧ (s.answer c).params = s.params ∧ (s.answer c).inputs = s.inputs ∧
    (s.answer c).host = s.host ∧ (s.answer c).status = c ∧ (s.answer c).fbOut = s.fbOut :=
  ⟨rfl, rfl, rfl, rfl, rfl, rfl, rfl, rfl, rfl, rfl, rfl, rfl, rfl, rfl, rfl, rfl, rfl, rfl, rfl⟩

@[simp] theorem State.initializeWrites_fields (s : State) :
    s.initializeWrites.v = s.v ∧ s.initializeWrites.i = 0 ∧ s.initializeWrites.pc = entryPC ∧
    s.initializeWrites.sp = s.sp ∧ s.initializeWrites.stack = s.stack ∧ s.initializeWrites.dt = s.dt ∧
    s.initializeWrites.st = s.st ∧ s.initializeWrites.ir = 0 ∧ s.initializeWrites.fb = s.fb ∧
    s.initializeWrites.keys = s.keys ∧
    s.initializeWrites.mem = Memory.writeBytes s.mem fontBase s.params.font.toList ∧
    s.initializeWrites.lstate = .ready ∧ s.initializeWrites.result = s.result ∧
    s.initializeWrites.tdiv = s.tdiv ∧ s.initializeWrites.params = s.params ∧
    s.initializeWrites.inputs = s.inputs ∧ s.initializeWrites.host = s.host ∧
    s.initializeWrites.status = s.status ∧ s.initializeWrites.fbOut = s.fbOut :=
  ⟨rfl, rfl, rfl, rfl, rfl, rfl, rfl, rfl, rfl, rfl, rfl, rfl, rfl, rfl, rfl, rfl, rfl, rfl, rfl⟩

@[simp] theorem State.loadWrites_fields (s : State) (bytes : List Byte) :
    (s.loadWrites bytes).v = s.v ∧ (s.loadWrites bytes).i = s.i ∧ (s.loadWrites bytes).pc = s.pc ∧
    (s.loadWrites bytes).sp = s.sp ∧ (s.loadWrites bytes).stack = s.stack ∧
    (s.loadWrites bytes).dt = s.dt ∧ (s.loadWrites bytes).st = s.st ∧ (s.loadWrites bytes).ir = s.ir ∧
    (s.loadWrites bytes).fb = s.fb ∧ (s.loadWrites bytes).keys = s.keys ∧
    (s.loadWrites bytes).mem = Memory.writeBytes s.mem imageBase bytes ∧
    (s.loadWrites bytes).lstate = s.lstate ∧ (s.loadWrites bytes).result = s.result ∧
    (s.loadWrites bytes).tdiv = s.tdiv ∧ (s.loadWrites bytes).params = s.params ∧
    (s.loadWrites bytes).inputs = s.inputs ∧ (s.loadWrites bytes).host = s.host ∧
    (s.loadWrites bytes).status = s.status ∧ (s.loadWrites bytes).fbOut = s.fbOut :=
  ⟨rfl, rfl, rfl, rfl, rfl, rfl, rfl, rfl, rfl, rfl, rfl, rfl, rfl, rfl, rfl, rfl, rfl, rfl, rfl⟩

@[simp] theorem State.fetched_fields (s : State) :
    s.fetched.v = s.v ∧ s.fetched.i = s.i ∧ s.fetched.pc = s.pc ∧ s.fetched.sp = s.sp ∧
    s.fetched.stack = s.stack ∧ s.fetched.dt = s.dt ∧ s.fetched.st = s.st ∧ s.fetched.ir = s.fetchWord ∧
    s.fetched.fb = s.fb ∧ s.fetched.keys = s.keys ∧ s.fetched.mem = s.mem ∧ s.fetched.lstate = s.lstate ∧
    s.fetched.result = s.result ∧ s.fetched.tdiv = s.tdiv ∧ s.fetched.params = s.params ∧
    s.fetched.inputs = s.inputs ∧ s.fetched.host = s.host ∧ s.fetched.status = s.status ∧
    s.fetched.fbOut = s.fbOut :=
  ⟨rfl, rfl, rfl, rfl, rfl, rfl, rfl, rfl, rfl, rfl, rfl, rfl, rfl, rfl, rfl, rfl, rfl, rfl, rfl⟩

@[simp] theorem State.present_fields (s : State) :
    s.present.v = s.v ∧ s.present.i = s.i ∧ s.present.pc = s.pc ∧ s.present.sp = s.sp ∧
    s.present.stack = s.stack ∧ s.present.dt = s.dt ∧ s.present.st = s.st ∧ s.present.ir = s.ir ∧
    s.present.fb = s.fb ∧ s.present.keys = s.keys ∧ s.present.mem = s.mem ∧ s.present.lstate = s.lstate ∧
    s.present.result = s.result ∧ s.present.tdiv = s.tdiv ∧ s.present.params = s.params ∧
    s.present.inputs = s.inputs ∧ s.present.host = s.host ∧ s.present.status = s.status ∧
    s.present.fbOut = some s.fb :=
  ⟨rfl, rfl, rfl, rfl, rfl, rfl, rfl, rfl, rfl, rfl, rfl, rfl, rfl, rfl, rfl, rfl, rfl, rfl, rfl⟩

@[simp] theorem State.refreshKeys_fields (s : State) :
    s.refreshKeys.v = s.v ∧ s.refreshKeys.i = s.i ∧ s.refreshKeys.pc = s.pc ∧ s.refreshKeys.sp = s.sp ∧
    s.refreshKeys.stack = s.stack ∧ s.refreshKeys.dt = s.dt ∧ s.refreshKeys.st = s.st ∧
    s.refreshKeys.ir = s.ir ∧ s.refreshKeys.fb = s.fb ∧ s.refreshKeys.keys = s.inputs.keysIn ∧
    s.refreshKeys.mem = s.mem ∧ s.refreshKeys.lstate = s.lstate ∧ s.refreshKeys.result = s.result ∧
    s.refreshKeys.tdiv = s.tdiv ∧ s.refreshKeys.params = s.params ∧ s.refreshKeys.inputs = s.inputs ∧
    s.refreshKeys.host = s.host ∧ s.refreshKeys.status = s.status ∧ s.refreshKeys.fbOut = s.fbOut :=
  ⟨rfl, rfl, rfl, rfl, rfl, rfl, rfl, rfl, rfl, rfl, rfl, rfl, rfl, rfl, rfl, rfl, rfl, rfl, rfl⟩

@[simp] theorem State.beginTick_fields (s : State) (inp : TickInputs) :
    (s.beginTick inp).v = s.v ∧ (s.beginTick inp).i = s.i ∧ (s.beginTick inp).pc = s.pc ∧
    (s.beginTick inp).sp = s.sp ∧ (s.beginTick inp).stack = s.stack ∧ (s.beginTick inp).dt = s.dt ∧
    (s.beginTick inp).st = s.st ∧ (s.beginTick inp).ir = s.ir ∧ (s.beginTick inp).fb = s.fb ∧
    (s.beginTick inp).keys = s.keys ∧ (s.beginTick inp).mem = s.mem ∧ (s.beginTick inp).lstate = s.lstate ∧
    (s.beginTick inp).result = s.result ∧ (s.beginTick inp).tdiv = s.tdiv ∧
    (s.beginTick inp).params = s.params ∧ (s.beginTick inp).inputs = inp ∧
    (s.beginTick inp).host = s.host ∧ (s.beginTick inp).status = .accepted ∧
    (s.beginTick inp).fbOut = s.fbOut :=
  ⟨rfl, rfl, rfl, rfl, rfl, rfl, rfl, rfl, rfl, rfl, rfl, rfl, rfl, rfl, rfl, rfl, rfl, rfl, rfl⟩

@[simp] theorem State.takeEvent_fields (s : State) (rest : List HostEvent) :
    (s.takeEvent rest).v = s.v ∧ (s.takeEvent rest).i = s.i ∧ (s.takeEvent rest).pc = s.pc ∧
    (s.takeEvent rest).sp = s.sp ∧ (s.takeEvent rest).stack = s.stack ∧ (s.takeEvent rest).dt = s.dt ∧
    (s.takeEvent rest).st = s.st ∧ (s.takeEvent rest).ir = s.ir ∧ (s.takeEvent rest).fb = s.fb ∧
    (s.takeEvent rest).keys = s.keys ∧ (s.takeEvent rest).mem = s.mem ∧
    (s.takeEvent rest).lstate = s.lstate ∧ (s.takeEvent rest).result = s.result ∧
    (s.takeEvent rest).tdiv = s.tdiv ∧ (s.takeEvent rest).params = s.params ∧
    (s.takeEvent rest).inputs = s.inputs ∧ (s.takeEvent rest).host = rest ∧
    (s.takeEvent rest).status = s.status ∧ (s.takeEvent rest).fbOut = s.fbOut :=
  ⟨rfl, rfl, rfl, rfl, rfl, rfl, rfl, rfl, rfl, rfl, rfl, rfl, rfl, rfl, rfl, rfl, rfl, rfl, rfl⟩

@[simp] theorem State.bumpIndex_fields (s : State) (n : Nat) :
    (s.bumpIndex n).v = s.v ∧ (s.bumpIndex n).pc = s.pc ∧ (s.bumpIndex n).sp = s.sp ∧
    (s.bumpIndex n).stack = s.stack ∧ (s.bumpIndex n).dt = s.dt ∧ (s.bumpIndex n).st = s.st ∧
    (s.bumpIndex n).ir = s.ir ∧ (s.bumpIndex n).fb = s.fb ∧ (s.bumpIndex n).keys = s.keys ∧
    (s.bumpIndex n).mem = s.mem ∧ (s.bumpIndex n).lstate = s.lstate ∧ (s.bumpIndex n).result = s.result ∧
    (s.bumpIndex n).tdiv = s.tdiv ∧ (s.bumpIndex n).params = s.params ∧ (s.bumpIndex n).inputs = s.inputs ∧
    (s.bumpIndex n).host = s.host ∧ (s.bumpIndex n).status = s.status ∧ (s.bumpIndex n).fbOut = s.fbOut := by
  unfold State.bumpIndex
  split <;> simp

@[simp] theorem State.timerUpdate_fields (s : State) :
    s.timerUpdate.v = s.v ∧ s.timerUpdate.i = s.i ∧ s.timerUpdate.pc = s.pc ∧ s.timerUpdate.sp = s.sp ∧
    s.timerUpdate.stack = s.stack ∧ s.timerUpdate.ir = s.ir ∧ s.timerUpdate.fb = s.fb ∧
    s.timerUpdate.keys = s.keys ∧ s.timerUpdate.mem = s.mem ∧ s.timerUpdate.lstate = s.lstate ∧
    s.timerUpdate.result = s.result ∧ s.timerUpdate.params = s.params ∧ s.timerUpdate.inputs = s.inputs ∧
    s.timerUpdate.host = s.host ∧ s.timerUpdate.status = s.status ∧ s.timerUpdate.fbOut = s.fbOut := by
  unfold State.timerUpdate
  split <;> simp

@[simp] theorem State.cancelCheck_fields (s : State) :
    s.cancelCheck.v = s.v ∧ s.cancelCheck.i = s.i ∧ s.cancelCheck.pc = s.pc ∧ s.cancelCheck.sp = s.sp ∧
    s.cancelCheck.stack = s.stack ∧ s.cancelCheck.dt = s.dt ∧ s.cancelCheck.st = s.st ∧
    s.cancelCheck.ir = s.ir ∧ s.cancelCheck.fb = s.fb ∧ s.cancelCheck.keys = s.keys ∧
    s.cancelCheck.mem = s.mem ∧ s.cancelCheck.tdiv = s.tdiv ∧ s.cancelCheck.params = s.params ∧
    s.cancelCheck.inputs = s.inputs ∧ s.cancelCheck.host = s.host ∧ s.cancelCheck.status = s.status ∧
    s.cancelCheck.fbOut = s.fbOut := by
  unfold State.cancelCheck
  split <;> simp

@[simp] theorem State.reg_setIndex (s : State) (w : Word) (r : Reg) : (s.setIndex w).reg r = s.reg r := rfl

@[simp] theorem State.reg_setPC (s : State) (w : Word) (r : Reg) : (s.setPC w).reg r = s.reg r := rfl

@[simp] theorem State.reg_advance (s : State) (r : Reg) : s.advance.reg r = s.reg r := rfl

@[simp] theorem State.reg_skipIf (s : State) (c : Bool) (r : Reg) : (s.skipIf c).reg r = s.reg r := rfl

@[simp] theorem State.reg_takeFault (s : State) (f : FaultInfo) (r : Reg) : (s.takeFault f).reg r = s.reg r := rfl

@[simp] theorem State.reg_storeAtIndex (s : State) (bytes : List Byte) (r : Reg) : (s.storeAtIndex bytes).reg r = s.reg r := rfl

@[simp] theorem State.reg_setFrame (s : State) (fb : FrameBuf) (r : Reg) : (s.setFrame fb).reg r = s.reg r := rfl

@[simp] theorem State.reg_setDelay (s : State) (b : Byte) (r : Reg) : (s.setDelay b).reg r = s.reg r := rfl

@[simp] theorem State.reg_setSound (s : State) (b : Byte) (r : Reg) : (s.setSound b).reg r = s.reg r := rfl

@[simp] theorem State.reg_fetched (s : State) (r : Reg) : s.fetched.reg r = s.reg r := rfl

@[simp] theorem State.reg_takeEvent (s : State) (rest : List HostEvent) (r : Reg) : (s.takeEvent rest).reg r = s.reg r := rfl

@[simp] theorem State.reg_beginTick (s : State) (inp : TickInputs) (r : Reg) : (s.beginTick inp).reg r = s.reg r := rfl

@[simp] theorem State.reg_bumpIndex (s : State) (n : Nat) (r : Reg) : (s.bumpIndex n).reg r = s.reg r := by
  simp [State.reg]

end Sys2Proof.Machine
end

