-- ==== Sys2Proof/Laws/Ops.lean ====
section
/-! SUPPORT. One lemma per shared operation, saying once everything it can do: the answers of an instruction, the
words and flags, the operands, the call stack, and the frame buffer. -/

namespace Sys2Proof.Machine

/-! ## Answers -/

@[simp] theorem complete_eq (s : State) : complete s = .next s := rfl

@[simp] theorem raise_eq (f : FaultInfo) (s : State) : raise f s = .next (s.takeFault f) := rfl

@[simp] theorem dataInBounds_iff (a : Word) (n : Nat) :
    dataInBounds a n = true ↔ n = 0 ∨ a.toNat + n ≤ memBytes := by
  simp [dataInBounds]

/-- With the bytes inside memory an access does what its instruction says. -/
theorem withData_inside {s : State} {n : Nat} (h : n = 0 ∨ s.i.toNat + n ≤ memBytes) (r : StepResult) :
    withData s n r = r := by
  simp [withData, h]

/-- With a byte outside memory an access takes `MemoryBoundsError(I)`, whatever its instruction says. -/
theorem withData_outside {s : State} {n : Nat} (h0 : n ≠ 0) (h : memBytes < s.i.toNat + n) (r : StepResult) :
    withData s n r = .next (s.takeFault (.memoryBoundsError s.i)) := by
  have : ¬(n = 0 ∨ s.i.toNat + n ≤ memBytes) := by omega
  simp [withData, this]

/-- The two answers of an access. -/
theorem withData_next {s t : State} {n : Nat} {r : StepResult} (h : withData s n r = .next t) :
    (r = .next t ∧ (n = 0 ∨ s.i.toNat + n ≤ memBytes)) ∨
      (t = s.takeFault (.memoryBoundsError s.i) ∧ n ≠ 0 ∧ memBytes < s.i.toNat + n) := by
  unfold withData at h
  split at h
  · rename_i hb
    exact .inl ⟨h, (dataInBounds_iff _ _).mp hb⟩
  · rename_i hb
    have hb' : ¬(n = 0 ∨ s.i.toNat + n ≤ memBytes) := fun c => hb ((dataInBounds_iff _ _).mpr c)
    cases h
    exact .inr ⟨rfl, by omega, by omega⟩

/-- The digit that a register value names, and when it names none. -/
theorem hexOperand_eq (m : KeyIndex) (b : Byte) :
    hexOperand m b = if m = .fault ∧ 15 < b.toNat then none else some (Fin.ofNat 16 b.toNat) := by
  cases m <;> simp [hexOperand]

theorem withHexOperand_some {s : State} {x : Reg} {k : Fin 16} (h : hexOperand s.params.keyIndex (s.reg x) = some k)
    (r : Fin 16 → StepResult) : withHexOperand s x r = r k := by
  simp [withHexOperand, h]

theorem withHexOperand_none {s : State} {x : Reg} (h : hexOperand s.params.keyIndex (s.reg x) = none)
    (r : Fin 16 → StepResult) : withHexOperand s x r = .next (s.takeFault (.operandRangeError (s.reg x))) := by
  simp [withHexOperand, h]

/-- The two answers of an instruction that takes a key or digit number from a register. -/
theorem withHexOperand_next {s t : State} {x : Reg} {r : Fin 16 → StepResult} (h : withHexOperand s x r = .next t) :
    (∃ k, hexOperand s.params.keyIndex (s.reg x) = some k ∧ r k = .next t) ∨
      (s.params.keyIndex = .fault ∧ 15 < (s.reg x).toNat ∧ t = s.takeFault (.operandRangeError (s.reg x))) := by
  cases hk : hexOperand s.params.keyIndex (s.reg x) with
  | some k => exact .inl ⟨k, rfl, by rwa [withHexOperand_some hk] at h⟩
  | none =>
    rw [withHexOperand_none hk] at h
    rw [hexOperand_eq] at hk
    split at hk
    · rename_i hc
      cases h
      exact .inr ⟨hc.1, hc.2, rfl⟩
    · cases hk

/-! ## Words and flags -/

theorem addWord_toNat (w : Word) (k : Nat) : (addWord w k).toNat = (w.toNat + k) % 65536 := by
  simp [addWord]

@[simp] theorem wordOfNNN_toNat (nnn : BitVec 12) : (wordOfNNN nnn).toNat = nnn.toNat := by
  have := nnn.isLt
  simp only [wordOfNNN, BitVec.toNat_setWidth]
  omega

theorem addByte_toNat (a b : Byte) : (addByte a b).toNat = (a.toNat + b.toNat) % 256 := by
  simp [addByte]

theorem subByte_toNat (a b : Byte) : (subByte a b).toNat = (a.toNat + 256 - b.toNat) % 256 := by
  simp [subByte]

theorem shrByte_toNat (a : Byte) : (shrByte a).toNat = a.toNat / 2 := by
  have := a.isLt
  simp only [shrByte, BitVec.toNat_ofNat]
  omega

theorem shlByte_toNat (a : Byte) : (shlByte a).toNat = a.toNat * 2 % 256 := by
  simp [shlByte]

@[simp] theorem flagByte_toNat (b : Bool) : (flagByte b).toNat = if b then 1 else 0 := by
  cases b <;> rfl

theorem shrOut_eq (a : Byte) : shrOut a = decide (a.toNat % 2 = 1) := by
  rw [shrOut, ← BitVec.testBit_toNat, Nat.testBit_zero]

theorem shlOut_eq (a : Byte) : shlOut a = decide (128 ≤ a.toNat) := by
  revert a
  decide

/-! ## Keys -/

/-- What FX0A sees: none exactly when every key is up. -/
theorem lowestKey_none (keys : BitVec 16) : lowestKey keys = none ↔ ∀ k, k < 16 → keys.getLsbD k = false := by
  simp [lowestKey, List.find?_eq_none]

/-- The lowest key down: it is down, and every lower one is up. -/
theorem lowestKey_some (keys : BitVec 16) (k : Nat) :
    lowestKey keys = some k ↔ k < 16 ∧ keys.getLsbD k = true ∧ ∀ j, j < k → keys.getLsbD j = false := by
  rw [lowestKey, List.find?_range_eq_some]
  simp
  tauto

/-! ## Call stack -/

/-- Everything a push does when there is room. -/
theorem State.push_some {s t : State} {ret : Word} (h : s.push ret = some t) :
    ∃ (hs : s.sp.val < 16) (p : Fin 17), p.val = s.sp.val + 1 ∧
      t = { s with stack := s.stack.set s.sp.val ret, sp := p } := by
  unfold State.push at h
  split at h
  · rename_i hs
    cases h
    exact ⟨hs, _, rfl, rfl⟩
  · cases h

theorem State.push_none {s : State} {ret : Word} : s.push ret = none ↔ s.sp.val = 16 := by
  have := s.sp.isLt
  unfold State.push
  split <;> simp <;> omega

/-- Everything a pop does when the stack holds an address. -/
theorem State.pop_some {s t : State} {ret : Word} (h : s.pop = some (ret, t)) :
    ∃ (hs : 0 < s.sp.val) (p : Fin 17), ret = s.stack[s.sp.val - 1]'(by omega) ∧ p.val = s.sp.val - 1 ∧
      t = { s with sp := p } := by
  unfold State.pop at h
  split at h
  · rename_i hs
    cases h
    exact ⟨hs, _, rfl, rfl, rfl⟩
  · cases h

theorem State.pop_none {s : State} : s.pop = none ↔ s.sp.val = 0 := by
  unfold State.pop
  split <;> simp <;> omega

/-! ## Blocks of registers -/

@[simp] theorem State.length_regsUpTo (s : State) (x : Reg) : (s.regsUpTo x).length = x.val + 1 := by
  have := x.isLt
  simp [State.regsUpTo]

theorem State.getElem_regsUpTo (s : State) (x : Reg) (k : Nat) (h : k < (s.regsUpTo x).length) (hk : k < 16) :
    (s.regsUpTo x)[k] = s.v[k] := by
  simp [State.regsUpTo]

/-- Loading V0 to VX: those registers come from memory, the others stay. -/
theorem State.reg_loadRegsUpTo (s : State) (x r : Reg) :
    (s.loadRegsUpTo x).reg r = if r ≤ x then Memory.read s.mem (s.i.toNat + r.val) else s.reg r := by
  simp only [State.loadRegsUpTo, State.reg, Fin.getElem_fin, Vector.getElem_ofFn, Fin.le_def]

/-- `I` after FX55 and FX65. -/
theorem State.bumpIndex_i_toNat (s : State) (n : Nat) :
    (s.bumpIndex n).i.toNat = if s.params.indexIncrement then (s.i.toNat + n) % 65536 else s.i.toNat := by
  unfold State.bumpIndex
  split <;> simp [addWord_toNat]

/-! ## Frame buffer -/

@[simp] theorem FrameBuf.cell_of_ge (fb : FrameBuf) {i : Nat} (h : 2048 ≤ i) : fb.cell i = false := by
  unfold FrameBuf.cell
  rw [dif_neg]
  simp only [fbCols]
  omega

@[simp] theorem FrameBuf.cell_clear (i : Nat) : FrameBuf.clear.cell i = false := by
  unfold FrameBuf.cell FrameBuf.clear
  split <;> simp

/-- Toggling one cell: that cell changes, every other one stays. -/
theorem FrameBuf.cell_flip (fb : FrameBuf) (i j : Nat) (hi : i < 2048) :
    (fb.flip i).cell j = if j = i then !fb.cell j else fb.cell j := by
  have hr : i / fbCols < 32 := by simp only [fbCols]; omega
  unfold FrameBuf.flip
  rw [dif_pos hr]
  unfold FrameBuf.cell
  by_cases hj : j / fbCols < 32
  · simp only [dif_pos hj]
    by_cases hrow : i / fbCols = j / fbCols
    · by_cases hcol : j = i
      · subst hcol
        have hlt : j % fbCols < 64 := Nat.mod_lt _ (by decide)
        simp [hlt]
      · have hne : ¬ j % fbCols = i % fbCols := by
          simp only [fbCols] at hrow ⊢
          omega
        simp [hrow, hcol, Ne.symm hne, BitVec.getLsbD_twoPow]
    · have hcol : ¬ j = i := fun e => hrow (by rw [e])
      simp [hrow, hcol]
  · have hcol : ¬ j = i := by
      simp only [fbCols] at hj
      omega
    simp [hj, hcol]

/-- Two frame buffers whose 2048 cells agree are equal. -/
theorem FrameBuf.ext_cells {fb fb' : FrameBuf} (h : ∀ i, i < 2048 → fb.cell i = fb'.cell i) : fb = fb' := by
  refine Vector.ext fun r hr => BitVec.eq_of_getLsbD_eq fun c hc => ?_
  have hi := h (64 * r + c) (by omega)
  have e1 : (64 * r + c) / 64 = r := by omega
  have e2 : (64 * r + c) % 64 = c := by omega
  simpa [FrameBuf.cell, fbCols, e1, e2, hr] using hi

/-- Every cell that a sprite toggles is a cell of the frame buffer. -/
theorem cellIndex_lt {e : DrawEdge} {x y i : Nat} (h : cellIndex e x y = some i) : i < 2048 := by
  cases e with
  | wrap =>
    simp only [cellIndex, Option.some.injEq, fbCols, fbRows] at h
    omega
  | clip =>
    simp [cellIndex] at h
    simp only [fbCols, fbRows] at h
    omega

/-- The drawing loop over cells without repeats: each listed cell is toggled, every other one stays, and there is a
collision exactly when a listed cell was set. -/
theorem drawCells_nodup (fb : FrameBuf) (acc : Bool) (cells : List Nat) (hlt : ∀ i ∈ cells, i < 2048)
    (hnd : cells.Nodup) :
    (∀ j, ((cells.foldl toggleCell (fb, acc)).1).cell j = if j ∈ cells then !fb.cell j else fb.cell j) ∧
      (cells.foldl toggleCell (fb, acc)).2 = (acc || cells.any fun i => fb.cell i) := by
  induction cells generalizing fb acc with
  | nil => simp
  | cons i rest ih =>
    have hi : i < 2048 := hlt i (by simp)
    obtain ⟨hni, hnd'⟩ := List.nodup_cons.mp hnd
    obtain ⟨hcell, hany⟩ := ih (fb.flip i) (acc || fb.cell i) (fun j hj => hlt j (by simp [hj])) hnd'
    refine ⟨fun j => ?_, ?_⟩
    · rw [List.foldl_cons, toggleCell, hcell j, FrameBuf.cell_flip fb i j hi]
      by_cases hj : j = i
      · subst hj
        simp [hni]
      · simp [hj]
    · rw [List.foldl_cons, toggleCell, hany, List.any_cons, Bool.or_assoc]
      congr 2
      rw [Bool.eq_iff_iff, List.any_eq_true, List.any_eq_true]
      refine exists_congr fun j => and_congr_right fun hj => ?_
      rw [FrameBuf.cell_flip fb i j hi, if_neg (fun e : j = i => hni (by rwa [← e]))]

end Sys2Proof.Machine
end

