-- ==== Sys2Proof/Laws/Display.lean ====
section
/-! SUPPORT. The cells a sprite covers: which they are, and that none is listed twice. -/

namespace Sys2Proof.Machine

/-- The cell of a column and a row, by `DRAW_EDGE`. -/
theorem cellIndex_eq (e : DrawEdge) (x y i : Nat) :
    cellIndex e x y = some i ↔
      (e = .wrap ∧ i = 64 * (y % 32) + x % 64) ∨ (e = .clip ∧ x < 64 ∧ y < 32 ∧ i = 64 * y + x) := by
  cases e <;> simp [cellIndex] <;> simp only [fbCols, fbRows] <;> omega

/-- The cells of one row: those of its 1 bits. -/
theorem mem_rowCells (e : DrawEdge) (x0 y i : Nat) (b : Byte) :
    i ∈ rowCells e x0 y b ↔ ∃ c, c < 8 ∧ b.getLsbD (7 - c) = true ∧ cellIndex e (x0 + c) y = some i := by
  simp only [rowCells, List.mem_filterMap, List.mem_range]
  constructor
  · rintro ⟨c, hc, h⟩
    split at h
    · exact ⟨c, hc, ‹_›, h⟩
    · cases h
  · rintro ⟨c, hc, hb, h⟩
    exact ⟨c, hc, by rw [if_pos hb]; exact h⟩

/-- The cells of a sprite: those of the 1 bits of each of its rows. -/
theorem mem_spriteCells (e : DrawEdge) (x0 y0 i : Nat) (rows : List Byte) :
    i ∈ spriteCells e x0 y0 rows ↔
      ∃ (r : Nat) (hr : r < rows.length) (c : Nat),
        c < 8 ∧ rows[r].getLsbD (7 - c) = true ∧ cellIndex e (x0 + c) (y0 + r) = some i := by
  induction rows generalizing y0 with
  | nil => simp [spriteCells]
  | cons b rest ih =>
    simp only [spriteCells, List.mem_append, mem_rowCells, ih]
    constructor
    · rintro (⟨c, hc, hb, h⟩ | ⟨r, hr, c, hc, hb, h⟩)
      · exact ⟨0, by simp, c, hc, by simpa using hb, by simpa using h⟩
      · exact ⟨r + 1, by simpa using hr, c, hc, by simpa using hb, by rw [← h]; congr 1; omega⟩
    · rintro ⟨r, hr, c, hc, hb, h⟩
      cases r with
      | zero => exact .inl ⟨c, hc, by simpa using hb, by simpa using h⟩
      | succ r => exact .inr ⟨r, by simpa using hr, c, hc, by simpa using hb, by rw [← h]; congr 1; omega⟩

/-- A row is 8 cells wide and the frame buffer 64, so no cell comes twice in a row, also when it wraps. -/
theorem nodup_rowCells (e : DrawEdge) (x0 y : Nat) (b : Byte) : (rowCells e x0 y b).Nodup := by
  unfold rowCells List.Nodup
  rw [List.pairwise_filterMap]
  refine List.Pairwise.imp_of_mem ?_ (List.nodup_range (n := 8))
  intro a a' ha ha' hne i hi j hj
  simp only [List.mem_range] at ha ha'
  split at hi <;> [skip; cases hi]
  split at hj <;> [skip; cases hj]
  rw [cellIndex_eq] at hi hj
  rintro rfl
  omega

/-- A sprite of at most 32 rows lists no cell twice, also when it wraps. -/
theorem nodup_spriteCells (e : DrawEdge) (x0 y0 : Nat) (rows : List Byte) (h : rows.length ≤ 32) :
    (spriteCells e x0 y0 rows).Nodup := by
  induction rows generalizing y0 with
  | nil => simp [spriteCells]
  | cons b rest ih =>
    simp only [List.length_cons] at h
    simp only [spriteCells]
    rw [List.nodup_append]
    refine ⟨nodup_rowCells _ _ _ _, ih _ (by omega), ?_⟩
    intro i hi j hj
    rw [mem_rowCells] at hi
    rw [mem_spriteCells] at hj
    obtain ⟨c, hc, -, h1⟩ := hi
    obtain ⟨r, hr, c', hc', -, h2⟩ := hj
    rw [cellIndex_eq] at h1 h2
    rintro rfl
    omega

/-- Setting a cell: that cell, and no other. -/
theorem FrameBuf.cell_setCell (fb : FrameBuf) (p : Nat × Bool) (hp : p.1 < 2048) (j : Nat) :
    (fb.setCell p).cell j = if j = p.1 then p.2 else fb.cell j := by
  unfold FrameBuf.setCell
  split
  · rename_i h
    split
    · rename_i h'
      rw [h', h]
    · rfl
  · rename_i h
    rw [FrameBuf.cell_flip _ _ _ hp]
    split
    · rename_i h'
      subst h'
      cases hh : fb.cell p.1 <;> cases hv : p.2 <;> simp_all
    · rfl

end Sys2Proof.Machine
end

