-- ==== Sys2Proof/Laws/Loop.lean ====
section
/-! SUPPORT. What one step can do, said once: every invariant of the machine is a case analysis of `StepCase`. -/

namespace Sys2Proof.Machine

theorem fetchInBounds_iff (s : State) : s.fetchInBounds = true ↔ s.pc.toNat ≤ 4094 := by
  unfold State.fetchInBounds
  rw [decide_eq_true_iff, memBytes]
  omega

/-- Every way in which a step answers a next state: nothing pending, the three commands, a tick that is refused, and
the three ends of the first phases of a tick. -/
inductive StepCase (s : State) : State → Prop where
  | idle (hh : s.host = []) : StepCase s s
  | initializeCmd (rest : List HostEvent) (hh : s.host = .initializeCmd :: rest) :
      StepCase s (s.takeEvent rest).cmdInitialize
  | loadCmd (bytes : List Byte) (rest : List HostEvent) (hh : s.host = .loadCmd bytes :: rest) :
      StepCase s ((s.takeEvent rest).cmdLoad bytes)
  | runCmd (bound : Bool) (rest : List HostEvent) (hh : s.host = .runCmd bound :: rest) :
      StepCase s ((s.takeEvent rest).cmdRun bound)
  | tickRefused (inp : TickInputs) (rest : List HostEvent) (hh : s.host = .tick inp :: rest)
      (hl : s.lstate ≠ .running) : StepCase s ((s.takeEvent rest).answer .refused)
  | fetchFault (inp : TickInputs) (rest : List HostEvent) (hh : s.host = .tick inp :: rest)
      (hl : s.lstate = .running) (hpc : 4094 < s.pc.toNat) :
      StepCase s (((s.takeEvent rest).beginTick inp).takeFault (.memoryBoundsError s.pc))
  | decodeFault (inp : TickInputs) (rest : List HostEvent) (e : DecodeReject) (hh : s.host = .tick inp :: rest)
      (hl : s.lstate = .running) (hpc : s.pc.toNat ≤ 4094) (hd : decode s.fetchWord = .error e) :
      StepCase s (((s.takeEvent rest).beginTick inp).fetched.takeFault (.decodeError s.fetchWord))
  | executed (inp : TickInputs) (rest : List HostEvent) (i : Instr) (u : State) (hh : s.host = .tick inp :: rest)
      (hl : s.lstate = .running) (hpc : s.pc.toNat ≤ 4094) (hd : decode s.fetchWord = .ok i)
      (he : exec i ((s.takeEvent rest).beginTick inp).fetched = .next u) : StepCase s u.afterExecute

@[simp] theorem fetchWord_begun (s : State) (rest : List HostEvent) (inp : TickInputs) :
    ((s.takeEvent rest).beginTick inp).fetchWord = s.fetchWord := rfl

@[simp] theorem fetchInBounds_begun (s : State) (rest : List HostEvent) (inp : TickInputs) :
    ((s.takeEvent rest).beginTick inp).fetchInBounds = s.fetchInBounds := rfl

/-- The inversion of a step. -/
theorem step_cases {s t : State} (h : step s = .next t) : StepCase s t := by
  unfold step stepWith at h
  split at h
  · rename_i hh
    cases h
    exact .idle hh
  · rename_i e rest hh
    cases e with
    | initializeCmd => cases h; exact .initializeCmd rest hh
    | loadCmd bytes => cases h; exact .loadCmd bytes rest hh
    | runCmd bound => cases h; exact .runCmd bound rest hh
    | concurrentLaunch => cases h
    | tick inp =>
      simp only [hostEventWith, State.takeEvent_fields] at h
      split at h
      · rename_i hl
        unfold tickWith at h
        split at h
        · rename_i hb
          have hpc : s.pc.toNat ≤ 4094 := (fetchInBounds_iff s).mp hb
          unfold decodeAndRun at h
          split at h
          · rename_i i hd
            have hd' : decode s.fetchWord = .ok i := hd
            unfold afterExecuteResult at h
            split at h
            · rename_i u he
              cases h
              exact .executed inp rest i u hh hl hpc hd' he
            · cases h
            · cases h
          · rename_i e hd
            have hd' : decode s.fetchWord = .error e := hd
            cases h
            exact .decodeFault inp rest e hh hl hpc hd'
        · rename_i hb
          have hpc : ¬ s.pc.toNat ≤ 4094 := fun c => hb ((fetchInBounds_iff s).mpr c)
          cases h
          exact .fetchFault inp rest hh hl (by omega)
      · rename_i hl
        cases h
        exact .tickRefused inp rest hh hl

/-- A tick of a running loop whose fetched word is an instruction. -/
theorem step_tick_ok {s : State} {inp : TickInputs} {rest : List HostEvent} {i : Instr} (hl : s.lstate = .running)
    (hh : s.host = .tick inp :: rest) (hpc : s.pc.toNat ≤ 4094) (hd : decode s.fetchWord = .ok i) :
    step s = afterExecuteResult (exec i ((s.takeEvent rest).beginTick inp).fetched) := by
  have hb : s.fetchInBounds = true := (fetchInBounds_iff s).mpr hpc
  simp [step, stepWith, hh, hostEventWith, hl, tickWith, hb, decodeAndRun, hd]

/-- A tick of a running loop whose fetched word is no instruction. -/
theorem step_tick_illegal {s : State} {inp : TickInputs} {rest : List HostEvent} {e : DecodeReject}
    (hl : s.lstate = .running) (hh : s.host = .tick inp :: rest) (hpc : s.pc.toNat ≤ 4094)
    (hd : decode s.fetchWord = .error e) :
    step s = .next (((s.takeEvent rest).beginTick inp).fetched.takeFault (.decodeError s.fetchWord)) := by
  have hb : s.fetchInBounds = true := (fetchInBounds_iff s).mpr hpc
  simp [step, stepWith, hh, hostEventWith, hl, tickWith, hb, decodeAndRun, hd]

/-- A tick of a running loop whose PC is outside memory. -/
theorem step_tick_outside {s : State} {inp : TickInputs} {rest : List HostEvent} (hl : s.lstate = .running)
    (hh : s.host = .tick inp :: rest) (hpc : 4094 < s.pc.toNat) :
    step s = .next (((s.takeEvent rest).beginTick inp).takeFault (.memoryBoundsError s.pc)) := by
  have hb : ¬ s.fetchInBounds = true := fun c => by
    have := (fetchInBounds_iff s).mp c
    omega
  simp [step, stepWith, hh, hostEventWith, hl, tickWith, hb]

/-- The decrement of a timer, as a number: down by one, clamped at 0. -/
theorem decTimer_toNat (b : Byte) : (decTimer b).toNat = b.toNat - 1 := by
  have := b.isLt
  unfold decTimer
  split
  · simp only [BitVec.toNat_ofNat]
    omega
  · omega

end Sys2Proof.Machine
end

