-- ==== Sys2Proof/Laws/Parts.lean ====
section
/-! SUPPORT. What the lists of parts in Safety.lean contain, and the frame of a fault. -/

namespace Sys2Proof.Machine

/-- The stored bytes are those of the range. -/
theorem mem_storedBytes (a : Word) (n b : Nat) :
    Part.byte b ∈ storedBytes a n ↔ a.toNat ≤ b ∧ b < a.toNat + n := by
  simp only [storedBytes, accessRange, List.mem_map, List.mem_range]
  constructor
  · rintro ⟨c, ⟨k, hk, rfl⟩, h⟩
    cases h
    omega
  · rintro ⟨h1, h2⟩
    exact ⟨b, ⟨b - a.toNat, by omega, by omega⟩, rfl⟩

/-- The two ways to say what a store writes agree. -/
theorem isStored_iff (a : Word) (n : Nat) (p : Part) : p.isStored a n = true ↔ p ∈ storedBytes a n := by
  cases p <;> simp [Part.isStored, storedBytes]

/-- A store at I leaves every byte but the stored ones as it was. -/
theorem read_storeAtIndex_outside (s : State) (bytes : List Byte) {a : Nat}
    (ha : Part.byte a ∉ storedBytes s.i bytes.length) :
    Memory.read (s.storeAtIndex bytes).mem a = Memory.read s.mem a := by
  rw [mem_storedBytes] at ha
  exact Memory.read_writeBytes_outside s.mem (by omega)

/-- A byte of an overlay: the new image where it reaches, the old one beyond. -/
theorem getD_overlay (old new : List Byte) (k : Nat) :
    (overlay old new).getD k 0 = if k < new.length then new.getD k 0 else old.getD k 0 := by
  unfold overlay
  split
  · rename_i h
    rw [List.getD_append _ _ _ _ h]
  · rename_i h
    rw [List.getD_append_right _ _ _ _ (by omega), List.getD_eq_getElem?_getD, List.getElem?_drop,
      List.getD_eq_getElem?_getD]
    congr 3
    omega

/-- The registers through VX are those with a number up to x. -/
theorem mem_regsThrough (x r : Reg) : Part.reg r ∈ regsThrough x ↔ r ≤ x := by
  simp [regsThrough]

/-- The cells are those with a number below 2048. -/
theorem mem_allCells (c : Nat) : Part.cell c ∈ allCells ↔ c < 2048 := by
  simp [allCells, fbCols, fbRows]

/-- Taking a fault changes `LSTATE` and `RESULT` only (R240). -/
theorem onlyChanges_takeFault (s : State) (f : FaultInfo) : OnlyChanges [.lstate, .result] s (s.takeFault f) := by
  intro p hp
  cases p <;> simp_all [Part.same]

end Sys2Proof.Machine
end

