-- ==== Sys2Proof/Laws/PerInstr.lean ====
section
/-! SUPPORT. Statements for all instructions, constructor by constructor. -/

namespace Sys2Proof.Laws.EncodesItsRow

/-- R78: an instruction's row is one of the opcode map, and its word matches that row. -/
def Statement (i : Instr) : Prop := i.rowOf ∈ opcodeRows ∧ encode i &&& i.rowOf.mask = i.rowOf.bits

/-- The rows of the map, one by one. -/
theorem mem_rows (r : OpcodeRow) (h : opcodeRows.contains r = true) : r ∈ opcodeRows := by
  simpa using h

theorem cls : Statement (.cls) :=
  ⟨mem_rows _ rfl, by decide⟩

theorem ret : Statement (.ret) :=
  ⟨mem_rows _ rfl, by decide⟩

theorem jp (nnn : BitVec 12) : Statement (.jp nnn) :=
  ⟨mem_rows _ rfl, by simp [encode, Instr.rowOf, and_maskF000]⟩

theorem call (nnn : BitVec 12) : Statement (.call nnn) :=
  ⟨mem_rows _ rfl, by simp [encode, Instr.rowOf, and_maskF000]⟩

theorem seImm (x : Reg) (nn : Byte) : Statement (.seImm x nn) :=
  ⟨mem_rows _ rfl, by simp [encode, Instr.rowOf, and_maskF000]⟩

theorem sneImm (x : Reg) (nn : Byte) : Statement (.sneImm x nn) :=
  ⟨mem_rows _ rfl, by simp [encode, Instr.rowOf, and_maskF000]⟩

theorem seReg (x y : Reg) : Statement (.seReg x y) :=
  ⟨mem_rows _ rfl, by simp [encode, Instr.rowOf, and_maskF00F]⟩

theorem ldImm (x : Reg) (nn : Byte) : Statement (.ldImm x nn) :=
  ⟨mem_rows _ rfl, by simp [encode, Instr.rowOf, and_maskF000]⟩

theorem addImm (x : Reg) (nn : Byte) : Statement (.addImm x nn) :=
  ⟨mem_rows _ rfl, by simp [encode, Instr.rowOf, and_maskF000]⟩

theorem ldReg (x y : Reg) : Statement (.ldReg x y) :=
  ⟨mem_rows _ rfl, by simp [encode, Instr.rowOf, and_maskF00F]⟩

theorem orReg (x y : Reg) : Statement (.orReg x y) :=
  ⟨mem_rows _ rfl, by simp [encode, Instr.rowOf, and_maskF00F]⟩

theorem andReg (x y : Reg) : Statement (.andReg x y) :=
  ⟨mem_rows _ rfl, by simp [encode, Instr.rowOf, and_maskF00F]⟩

theorem xorReg (x y : Reg) : Statement (.xorReg x y) :=
  ⟨mem_rows _ rfl, by simp [encode, Instr.rowOf, and_maskF00F]⟩

theorem addReg (x y : Reg) : Statement (.addReg x y) :=
  ⟨mem_rows _ rfl, by simp [encode, Instr.rowOf, and_maskF00F]⟩

theorem subReg (x y : Reg) : Statement (.subReg x y) :=
  ⟨mem_rows _ rfl, by simp [encode, Instr.rowOf, and_maskF00F]⟩

theorem shr (x y : Reg) : Statement (.shr x y) :=
  ⟨mem_rows _ rfl, by simp [encode, Instr.rowOf, and_maskF00F]⟩

theorem subnReg (x y : Reg) : Statement (.subnReg x y) :=
  ⟨mem_rows _ rfl, by simp [encode, Instr.rowOf, and_maskF00F]⟩

theorem shl (x y : Reg) : Statement (.shl x y) :=
  ⟨mem_rows _ rfl, by simp [encode, Instr.rowOf, and_maskF00F]⟩

theorem sneReg (x y : Reg) : Statement (.sneReg x y) :=
  ⟨mem_rows _ rfl, by simp [encode, Instr.rowOf, and_maskF00F]⟩

theorem ldI (nnn : BitVec 12) : Statement (.ldI nnn) :=
  ⟨mem_rows _ rfl, by simp [encode, Instr.rowOf, and_maskF000]⟩

theorem jpV0 (nnn : BitVec 12) : Statement (.jpV0 nnn) :=
  ⟨mem_rows _ rfl, by simp [encode, Instr.rowOf, and_maskF000]⟩

theorem rnd (x : Reg) (nn : Byte) : Statement (.rnd x nn) :=
  ⟨mem_rows _ rfl, by simp [encode, Instr.rowOf, and_maskF000]⟩

theorem drw (x y : Reg) (n : Nat) : Statement (.drw x y n) :=
  ⟨mem_rows _ rfl, by simp [encode, Instr.rowOf, and_maskF000]⟩

theorem skp (x : Reg) : Statement (.skp x) :=
  ⟨mem_rows _ rfl, by simp [encode, encodeX, Instr.rowOf, and_maskF0FF]⟩

theorem sknp (x : Reg) : Statement (.sknp x) :=
  ⟨mem_rows _ rfl, by simp [encode, encodeX, Instr.rowOf, and_maskF0FF]⟩

theorem ldVxDt (x : Reg) : Statement (.ldVxDt x) :=
  ⟨mem_rows _ rfl, by simp [encode, encodeX, Instr.rowOf, and_maskF0FF]⟩

theorem ldVxK (x : Reg) : Statement (.ldVxK x) :=
  ⟨mem_rows _ rfl, by simp [encode, encodeX, Instr.rowOf, and_maskF0FF]⟩

theorem ldDtVx (x : Reg) : Statement (.ldDtVx x) :=
  ⟨mem_rows _ rfl, by simp [encode, encodeX, Instr.rowOf, and_maskF0FF]⟩

theorem ldStVx (x : Reg) : Statement (.ldStVx x) :=
  ⟨mem_rows _ rfl, by simp [encode, encodeX, Instr.rowOf, and_maskF0FF]⟩

theorem addI (x : Reg) : Statement (.addI x) :=
  ⟨mem_rows _ rfl, by simp [encode, encodeX, Instr.rowOf, and_maskF0FF]⟩

theorem ldF (x : Reg) : Statement (.ldF x) :=
  ⟨mem_rows _ rfl, by simp [encode, encodeX, Instr.rowOf, and_maskF0FF]⟩

theorem ldB (x : Reg) : Statement (.ldB x) :=
  ⟨mem_rows _ rfl, by simp [encode, encodeX, Instr.rowOf, and_maskF0FF]⟩

theorem stRegs (x : Reg) : Statement (.stRegs x) :=
  ⟨mem_rows _ rfl, by simp [encode, encodeX, Instr.rowOf, and_maskF0FF]⟩

theorem ldRegs (x : Reg) : Statement (.ldRegs x) :=
  ⟨mem_rows _ rfl, by simp [encode, encodeX, Instr.rowOf, and_maskF0FF]⟩

end Sys2Proof.Laws.EncodesItsRow
end

