-- ==== Sys2Proof/Machine/Assembly.lean ====
section
/-! DEFINITION. The assembler spelling of an instruction (spec 30_encoding.md R85, general knowledge by its own words):
labels for reading, with no effect on the machine. -/

namespace Sys2Proof.Machine

/-- The last `k` hexadecimal digits of a number, upper case. -/
def hexDigits (k n : Nat) : List Char := (List.range k).map fun j => hexDigit (n / 16 ^ (k - 1 - j) % 16)

/-- An immediate of `k` digits, with `0x` (R85). -/
def hexText (k n : Nat) : String := "0x" ++ String.ofList (hexDigits k n)

/-- `V0` to `VF`. -/
def regText (x : Reg) : String := "V" ++ String.ofList [hexDigit x.val]

/-- One or two operands after the operation, destination first (R85). -/
def opText (op a b : String) : String := op ++ " " ++ a ++ ", " ++ b

/-- The mnemonic column of R78, with the operands in place. -/
def assembly (i : Instr) : String :=
  match i with
  | .cls => "CLS"
  | .ret => "RET"
  | .jp nnn => "JP " ++ hexText 3 nnn.toNat
  | .call nnn => "CALL " ++ hexText 3 nnn.toNat
  | .seImm x nn => opText "SE" (regText x) (hexText 2 nn.toNat)
  | .sneImm x nn => opText "SNE" (regText x) (hexText 2 nn.toNat)
  | .seReg x y => opText "SE" (regText x) (regText y)
  | .ldImm x nn => opText "LD" (regText x) (hexText 2 nn.toNat)
  | .addImm x nn => opText "ADD" (regText x) (hexText 2 nn.toNat)
  | .ldReg x y => opText "LD" (regText x) (regText y)
  | .orReg x y => opText "OR" (regText x) (regText y)
  | .andReg x y => opText "AND" (regText x) (regText y)
  | .xorReg x y => opText "XOR" (regText x) (regText y)
  | .addReg x y => opText "ADD" (regText x) (regText y)
  | .subReg x y => opText "SUB" (regText x) (regText y)
  | .shr x y => opText "SHR" (regText x) (regText y)
  | .subnReg x y => opText "SUBN" (regText x) (regText y)
  | .shl x y => opText "SHL" (regText x) (regText y)
  | .sneReg x y => opText "SNE" (regText x) (regText y)
  | .ldI nnn => opText "LD" "I" (hexText 3 nnn.toNat)
  | .jpV0 nnn => opText "JP" "V0" (hexText 3 nnn.toNat)
  | .rnd x nn => opText "RND" (regText x) (hexText 2 nn.toNat)
  | .drw x y n => opText "DRW" (regText x) (regText y) ++ ", " ++ toString n
  | .skp x => "SKP " ++ regText x
  | .sknp x => "SKNP " ++ regText x
  | .ldVxDt x => opText "LD" (regText x) "DT"
  | .ldVxK x => opText "LD" (regText x) "K"
  | .ldDtVx x => opText "LD" "DT" (regText x)
  | .ldStVx x => opText "LD" "ST" (regText x)
  | .addI x => opText "ADD" "I" (regText x)
  | .ldF x => opText "LD" "F" (regText x)
  | .ldB x => opText "LD" "B" (regText x)
  | .stRegs x => opText "LD" "[I]" (regText x)
  | .ldRegs x => opText "LD" (regText x) "[I]"

end Sys2Proof.Machine
end

