-- ==== Sys2Proof/Tests/Slice0.lean ====
section
/-! SUPPORT. The model's own tests.  Expected values come from the spec: the opcode map R78 for decoding, the vectors
V-… and the source's properties S… of 95_test_vectors.md for the steps.  The last part shows, for each statement with
hypotheses, a concrete state that meets them. -/

namespace Sys2Proof.Tests

open Sys2Proof Sys2Proof.Machine

-- Many small theorems: one after the other, so that no machine needs a thread for each.
set_option Elab.async false

/-! ## WellFormed: the one check, and what it refuses (R71: N is 0 to 15) -/

theorem test_wf_refuses_n_16 : (Instr.drw 0 0 16).wellFormed = false := by decide
theorem test_wf_refuses_n_255 : (Instr.drw 15 15 255).wellFormed = false := by decide
theorem test_wf_accepts_n_15 : (Instr.drw 15 15 15).wellFormed = true := by decide
theorem test_wf_accepts_n_0 : (Instr.drw 0 0 0).wellFormed = true := by decide

/-! ## Decoding: one word for each constructor, written out digit by digit from R78 -/

theorem test_decode_cls : decode 0b0000_0000_1110_0000 = .ok (.cls) := by decide
theorem test_decode_ret : decode 0b0000_0000_1110_1110 = .ok (.ret) := by decide
theorem test_decode_jp : decode 0b0001_1010_1011_1100 = .ok (.jp 0xABC) := by decide
theorem test_decode_call : decode 0b0010_1010_1011_1100 = .ok (.call 0xABC) := by decide
theorem test_decode_seImm : decode 0b0011_1010_0100_0010 = .ok (.seImm 0xA 0x42) := by decide
theorem test_decode_sneImm : decode 0b0100_0011_1111_0000 = .ok (.sneImm 3 0xF0) := by decide
theorem test_decode_seReg : decode 0b0101_0001_0010_0000 = .ok (.seReg 1 2) := by decide
theorem test_decode_ldImm : decode 0b0110_1010_0100_0010 = .ok (.ldImm 0xA 0x42) := by decide
theorem test_decode_addImm : decode 0b0111_0001_1111_1111 = .ok (.addImm 1 0xFF) := by decide
theorem test_decode_ldReg : decode 0b1000_1010_1011_0000 = .ok (.ldReg 0xA 0xB) := by decide
theorem test_decode_orReg : decode 0b1000_1010_1011_0001 = .ok (.orReg 0xA 0xB) := by decide
theorem test_decode_andReg : decode 0b1000_1010_1011_0010 = .ok (.andReg 0xA 0xB) := by decide
theorem test_decode_xorReg : decode 0b1000_1010_1011_0011 = .ok (.xorReg 0xA 0xB) := by decide
theorem test_decode_addReg : decode 0b1000_1010_1011_0100 = .ok (.addReg 0xA 0xB) := by decide
theorem test_decode_subReg : decode 0b1000_1010_1011_0101 = .ok (.subReg 0xA 0xB) := by decide
theorem test_decode_shr : decode 0b1000_1010_1011_0110 = .ok (.shr 0xA 0xB) := by decide
theorem test_decode_subnReg : decode 0b1000_1010_1011_0111 = .ok (.subnReg 0xA 0xB) := by decide
theorem test_decode_shl : decode 0b1000_1010_1011_1110 = .ok (.shl 0xA 0xB) := by decide
theorem test_decode_sneReg : decode 0b1001_0100_1110_0000 = .ok (.sneReg 4 0xE) := by decide
theorem test_decode_ldI : decode 0b1010_0001_0010_0011 = .ok (.ldI 0x123) := by decide
theorem test_decode_jpV0 : decode 0b1011_0011_0000_0001 = .ok (.jpV0 0x301) := by decide
theorem test_decode_rnd : decode 0b1100_0011_0000_1111 = .ok (.rnd 3 0x0F) := by decide
theorem test_decode_drw : decode 0b1101_0001_0010_0101 = .ok (.drw 1 2 5) := by decide
theorem test_decode_skp : decode 0b1110_0001_1001_1110 = .ok (.skp 1) := by decide
theorem test_decode_sknp : decode 0b1110_0001_1010_0001 = .ok (.sknp 1) := by decide
theorem test_decode_ldVxDt : decode 0b1111_0010_0000_0111 = .ok (.ldVxDt 2) := by decide
theorem test_decode_ldVxK : decode 0b1111_0001_0000_1010 = .ok (.ldVxK 1) := by decide
theorem test_decode_ldDtVx : decode 0b1111_0100_0001_0101 = .ok (.ldDtVx 4) := by decide
theorem test_decode_ldStVx : decode 0b1111_0100_0001_1000 = .ok (.ldStVx 4) := by decide
theorem test_decode_addI : decode 0b1111_0001_0001_1110 = .ok (.addI 1) := by decide
theorem test_decode_ldF : decode 0b1111_1110_0010_1001 = .ok (.ldF 0xE) := by decide
theorem test_decode_ldB : decode 0b1111_0111_0011_0011 = .ok (.ldB 7) := by decide
theorem test_decode_stRegs : decode 0b1111_0001_0101_0101 = .ok (.stRegs 1) := by decide
theorem test_decode_ldRegs : decode 0b1111_0010_0110_0101 = .ok (.ldRegs 2) := by decide

/-! The illegal words of V-E1 to V-E8, and V-E9. -/

theorem test_decode_ffff : decode 0xFFFF = .error .illegalFamilyF := by decide
theorem test_decode_0000 : decode 0x0000 = .error .illegalFamily0 := by decide
theorem test_decode_0ee0 : decode 0x0EE0 = .error .illegalFamily0 := by decide
theorem test_decode_10e0 : decode 0x10E0 = .ok (.jp 0x0E0) := by decide
theorem test_decode_5121 : decode 0x5121 = .error .illegalFamily5 := by decide
theorem test_decode_9abf : decode 0x9ABF = .error .illegalFamily9 := by decide
theorem test_decode_8ab8 : decode 0x8AB8 = .error .illegalFamily8 := by decide
theorem test_decode_8abf : decode 0x8ABF = .error .illegalFamily8 := by decide
theorem test_decode_e19f : decode 0xE19F = .error .illegalFamilyE := by decide
theorem test_decode_f175 : decode 0xF175 = .error .illegalFamilyF := by decide
theorem test_decode_d000 : decode 0xD000 = .ok (.drw 0 0 0) := by decide

/-! The bytes of a word: the high byte first (R53, P1); the two fixed names of the interface. -/

theorem test_decode_bytes : decodeBytes [0xA0, 0x50, 0x00] = .ok (.ldI 0x050, [0x00]) := by decide
theorem test_decode_truncated : decodeBytes [0xA0] = .error .truncated := by decide
theorem test_encode_bytes : encodeBytes (.ldI 0x050) = [0xA0, 0x50] := by decide
theorem test_table_word : decodeTableWord 16 0xD125 = some (.drw 1 2 5) := by decide
theorem test_table_word_illegal : decodeTableWord 16 0xFFFF = none := by decide
theorem test_table_word_above_nbits : decodeTableWord 16 0x16A42 = some (.ldImm 0xA 0x42) := by decide

/-- R233: the word of a decode error as text. -/
theorem test_error_text : decodeErrorText 0x0F9A = ['0', 'F', '9', 'A'] := by decide

/-! The spellings of the listings P1, P3 and P4 (R85). -/

theorem test_assembly_ldI : assembly (.ldI 0x050) = "LD I, 0x050" := by decide +kernel
theorem test_assembly_ldRegs : assembly (.ldRegs 2) = "LD V2, [I]" := by decide +kernel
theorem test_assembly_drw : assembly (.drw 1 2 5) = "DRW V1, V2, 5" := by decide +kernel

/-! ## One tick

`booted` is the start state of the vectors, without the font; a test adds what its vector lists under "Start". -/

/-- PC at 0x200, the loop running, everything else 0. -/
def booted : State := { State.reset with pc := 0x200, lstate := .running }

/-- `booted` with other parameters. -/
def bootedWith (p : Params) : State := { booted with params := p }

/-- The parameters with every choice the other way (and a divider of 2). -/
def otherParams : Params :=
  { defaultParams with
    timerDivider := 2, subFlag := .notBorrow, shiftSource := .vy, drawEdge := .clip, keyIndex := .fault,
    indexIncrement := true }

/-- What one tick of the word `w` leaves, seen through `f`. -/
def tickSees {α : Type} (s : State) (w : Nat) (f : State → α) : Option α :=
  match step (s.withFetchWord 16 w) with
  | .next t => some (f t)
  | .fault _ => none
  | .refused _ => none

/-- The cells that hold 1 among those listed. -/
def setCells (s : State) (cells : List Nat) : List Nat := cells.filter s.fb.cell

/-- A memory with the bytes of a list at an address. -/
def memAt (a : Nat) (bytes : List Byte) : Memory := Memory.writeBytes [] a bytes

/-! ### Control transfer -/

/-- V-F1. -/
theorem test_jp :
    tickSees booted 0x1ABC (fun t => (t.pc, t.lstate)) = some (0x0ABC, .running) := by decide +kernel

/-- V-F4. -/
theorem test_call :
    tickSees { booted with pc := 0x246 } 0x2ABC (fun t => (t.stack[0], t.sp, t.pc)) = some (0x0248, 1, 0x0ABC) := by decide +kernel

/-- V-F6. -/
theorem test_call_full :
    tickSees { booted with sp := 16 } 0x2300 (fun t => (t.result, t.pc, t.sp, t.lstate)) = some (.fault (.stackOverflow 0x200), 0x200, 16, .failed) := by decide +kernel

/-- V-F7: the newest of two addresses; the slot keeps it. -/
theorem test_ret :
    tickSees { booted with sp := 2, stack := (booted.stack.set 0 0x0204).set 1 0x3456 } 0x00EE (fun t => (t.pc, t.sp, t.stack[1])) = some (0x3456, 1, 0x3456) := by decide +kernel

/-- V-F8. -/
theorem test_ret_empty :
    tickSees booted 0x00EE (fun t => (t.result, t.pc, t.sp)) = some (.fault (.stackUnderflow 0x200), 0x200, 0) := by decide +kernel

/-- V-F10: a 16-bit sum. -/
theorem test_jpV0 :
    tickSees (booted.setReg 0 0xFF) 0xBFFF (fun t => t.pc) = some 0x10FE := by decide +kernel

/-- V-F11. -/
theorem test_seImm :
    tickSees (booted.setReg 0xA 0x42) 0x3A42 (fun t => t.pc) = some 0x0204 := by decide +kernel

/-- V-F21: the skip is computed in 16 bits. -/
theorem test_seImm_end :
    tickSees { booted with pc := 0x0FFE } 0x3000 (fun t => t.pc) = some 0x1002 := by decide +kernel

/-- V-F13. -/
theorem test_sneImm :
    tickSees (booted.setReg 3 1) 0x4300 (fun t => t.pc) = some 0x0204 := by decide +kernel

/-- V-F14. -/
theorem test_sneImm_equal :
    tickSees booted 0x4300 (fun t => t.pc) = some 0x0202 := by decide +kernel

/-- V-F16. -/
theorem test_seReg :
    tickSees ((booted.setReg 1 7).setReg 2 8) 0x5120 (fun t => t.pc) = some 0x0202 := by decide +kernel

/-- V-F17. -/
theorem test_seReg_self :
    tickSees (booted.setReg 3 0x99) 0x5330 (fun t => t.pc) = some 0x0204 := by decide +kernel

/-- V-F18. -/
theorem test_sneReg :
    tickSees ((booted.setReg 1 7).setReg 2 8) 0x9120 (fun t => t.pc) = some 0x0204 := by decide +kernel

/-- V-F20. -/
theorem test_sneReg_self :
    tickSees (booted.setReg 4 1) 0x9440 (fun t => t.pc) = some 0x0202 := by decide +kernel

/-! ### Load, ALU, random -/

/-- V-A1. -/
theorem test_ldImm :
    tickSees booted 0x6005 (fun t => (t.reg 0, t.pc)) = some (0x05, 0x0202) := by decide +kernel

/-- V-A2. -/
theorem test_ldImm_vf :
    tickSees booted 0x6FAB (fun t => t.reg 15) = some 0xAB := by decide +kernel

/-- V-A3: VF stays. -/
theorem test_addImm :
    tickSees ((booted.setReg 0 0xFE).setReg 15 1) 0x7003 (fun t => (t.reg 0, t.reg 15)) = some (1, 1) := by decide +kernel

/-- V-A5: a plain wrap. -/
theorem test_addImm_vf :
    tickSees (booted.setReg 15 0xFF) 0x7F01 (fun t => t.reg 15) = some 0 := by decide +kernel

/-- V-A6. -/
theorem test_ldReg :
    tickSees (booted.setReg 2 0x3C) 0x8120 (fun t => t.reg 1) = some 0x3C := by decide +kernel

/-- V-A7. -/
theorem test_orReg :
    tickSees (((booted.setReg 1 0x0F).setReg 2 0xF0).setReg 15 1) 0x8121 (fun t => (t.reg 1, t.reg 15)) = some (0xFF, 1) := by decide +kernel

/-- V-A8. -/
theorem test_andReg :
    tickSees (((booted.setReg 1 0x3C).setReg 2 0x0F).setReg 15 1) 0x8122 (fun t => (t.reg 1, t.reg 15)) = some (0x0C, 1) := by decide +kernel

/-- V-A9. -/
theorem test_xorReg :
    tickSees (((booted.setReg 1 0xFF).setReg 2 0x0F).setReg 15 1) 0x8123 (fun t => (t.reg 1, t.reg 15)) = some (0xF0, 1) := by decide +kernel

/-- V-A14. -/
theorem test_addReg :
    tickSees ((booted.setReg 0 0xFF).setReg 1 0xFF) 0x8014 (fun t => (t.reg 0, t.reg 15)) = some (0xFE, 1) := by decide +kernel

/-- V-A16: the flag is written last. -/
theorem test_addReg_vf :
    tickSees ((booted.setReg 15 0xF0).setReg 1 0x20) 0x8F14 (fun t => t.reg 15) = some 1 := by decide +kernel

/-- V-A19: borrow. -/
theorem test_subReg :
    tickSees ((booted.setReg 1 5).setReg 2 7) 0x8125 (fun t => (t.reg 1, t.reg 15)) = some (0xFE, 1) := by decide +kernel

/-- V-A21 under `not_borrow`. -/
theorem test_subReg_notBorrow :
    tickSees (((bootedWith otherParams).setReg 1 7).setReg 2 7) 0x8125 (fun t => (t.reg 1, t.reg 15)) = some (0, 1) := by decide +kernel

/-- V-A24. -/
theorem test_subnReg :
    tickSees ((booted.setReg 1 5).setReg 2 7) 0x8127 (fun t => (t.reg 1, t.reg 15)) = some (2, 0) := by decide +kernel

/-- V-A25 under `not_borrow`. -/
theorem test_subnReg_notBorrow :
    tickSees (((bootedWith otherParams).setReg 1 7).setReg 2 5) 0x8127 (fun t => (t.reg 1, t.reg 15)) = some (0xFE, 0) := by decide +kernel

/-- V-A30. -/
theorem test_shr :
    tickSees ((booted.setReg 1 0xFF).setReg 2 4) 0x8126 (fun t => (t.reg 1, t.reg 15)) = some (0x7F, 1) := by decide +kernel

/-- V-A30 under `SHIFT_SOURCE = VY`. -/
theorem test_shr_vy :
    tickSees (((bootedWith otherParams).setReg 1 0xFF).setReg 2 4) 0x8126 (fun t => (t.reg 1, t.reg 15, t.reg 2)) = some (2, 0, 4) := by decide +kernel

/-- V-A31. -/
theorem test_shl :
    tickSees (booted.setReg 1 0x81) 0x812E (fun t => (t.reg 1, t.reg 15)) = some (2, 1) := by decide +kernel

/-- V-A34. -/
theorem test_shl_vy :
    tickSees ((bootedWith otherParams).setReg 2 0xC1) 0x812E (fun t => (t.reg 1, t.reg 15, t.reg 2)) = some (0x82, 1, 0xC1) := by decide +kernel

/-- V-A37. -/
theorem test_rnd :
    tickSees { booted with inputs := ⟨0xA7, true, 0, false⟩ } 0xC30F (fun t => t.reg 3) = some 0x07 := by decide +kernel

/-! ### Index and memory -/

/-- V-I2. -/
theorem test_ldI :
    tickSees booted 0xAFFF (fun t => (t.i, t.pc)) = some (0x0FFF, 0x0202) := by decide +kernel

/-- V-I4: no flag and no fault. -/
theorem test_addI :
    tickSees ({ booted with i := 0x0FFF }.setReg 1 1) 0xF11E (fun t => (t.i, t.reg 15, t.lstate)) = some (0x1000, 0, .running) := by decide +kernel

/-- V-I5. -/
theorem test_addI_wraps :
    tickSees ({ booted with i := 0xFFFF }.setReg 1 2) 0xF11E (fun t => t.i) = some 1 := by decide +kernel

/-- V-I8. -/
theorem test_ldF :
    tickSees (booted.setReg 0 0x1A) 0xF029 (fun t => t.i) = some 0x0082 := by decide +kernel

/-- V-I8 under `KEY_INDEX = fault`. -/
theorem test_ldF_range :
    tickSees ((bootedWith otherParams).setReg 0 0x1A) 0xF029 (fun t => (t.result, t.i, t.pc)) = some (.fault (.operandRangeError 0x1A), 0, 0x200) := by decide +kernel

/-- V-I10. -/
theorem test_ldB :
    tickSees ({ booted with i := 0x300 }.setReg 0 0x9C) 0xF033 (fun t => (Memory.readBytes t.mem 0x300 3, t.i)) = some ([1, 5, 6], 0x300) := by decide +kernel

/-- V-I14: nothing is stored. -/
theorem test_ldB_bounds :
    tickSees ({ booted with i := 4094 }.setReg 0 7) 0xF033 (fun t => (t.result, Memory.readBytes t.mem 4094 2, t.pc)) = some (.fault (.memoryBoundsError 4094), [0, 0], 0x200) := by decide +kernel

/-- V-I15 under `INDEX_INCREMENT = true`. -/
theorem test_stRegs :
    tickSees ((({ bootedWith otherParams with i := 0x400 }.setReg 0 0xAA).setReg 1 0xBB).setReg 2 0xCC) 0xF155 (fun t => (Memory.readBytes t.mem 0x400 3, t.i)) = some ([0xAA, 0xBB, 0], 0x402) := by decide +kernel

/-- V-I19. -/
theorem test_stRegs_bounds :
    tickSees ({ booted with i := 4096 }.setReg 0 0x77) 0xF055 (fun t => t.result) = some (.fault (.memoryBoundsError 4096)) := by decide +kernel

/-- V-I20: V3 and I stay. -/
theorem test_ldRegs :
    tickSees ({ booted with i := 0x300, mem := memAt 0x300 [0, 0, 1, 9] }.setReg 3 0x33) 0xF265 (fun t => (t.reg 0, t.reg 1, t.reg 2, t.reg 3, t.i)) = some (0, 0, 1, 0x33, 0x300) := by decide +kernel

/-- V-I21: not even V0 is loaded. -/
theorem test_ldRegs_bounds :
    tickSees (({ booted with i := 4095, mem := memAt 4095 [9] }.setReg 0 5).setReg 1 6) 0xF165 (fun t => (t.result, t.reg 0, t.reg 1)) = some (.fault (.memoryBoundsError 4095), 5, 6) := by decide +kernel

/-! ### Display -/

/-- V-D12: VF stays. -/
theorem test_cls :
    tickSees ({ booted with fb := Vector.replicate 32 (BitVec.allOnes 64) }.setReg 15 1) 0x00E0 (fun t => (decide (t.fb = FrameBuf.clear), t.reg 15, t.pc)) = some (true, 1, 0x0202) := by decide +kernel

/-- V-D3: the second row comes in at the top. -/
theorem test_drw_wraps :
    tickSees ({ booted with i := 0x300, mem := memAt 0x300 [0x80, 0x80] }.setReg 1 31) 0xD012 (fun t => (setCells t (List.range 2048), t.reg 15)) = some ([0, 1984], 0) := by decide +kernel

/-- V-D5. -/
theorem test_drw_collision :
    tickSees { booted with i := 0x300, mem := memAt 0x300 [0xC0], fb := FrameBuf.clear.flip 1 } 0xD011 (fun t => (setCells t [0, 1, 2], t.reg 15)) = some ([0], 1) := by decide +kernel

/-! ### Keypad and timers -/

/-- V-K1. -/
theorem test_skp :
    tickSees ({ booted with pc := 0x208, keys := 0x0080 }.setReg 1 7) 0xE19E (fun t => t.pc) = some 0x020C := by decide +kernel

/-- V-K5 under `KEY_INDEX = fault`. -/
theorem test_skp_range :
    tickSees ({ bootedWith otherParams with pc := 0x208, keys := 0x0080 }.setReg 1 0x17) 0xE19E (fun t => (t.result, t.pc)) = some (.fault (.operandRangeError 0x17), 0x0208) := by decide +kernel

/-- V-K3. -/
theorem test_sknp :
    tickSees ({ booted with pc := 0x208, keys := 0x0080 }.setReg 1 7) 0xE1A1 (fun t => t.pc) = some 0x020A := by decide +kernel

/-- V-K4. -/
theorem test_sknp_up :
    tickSees ({ booted with pc := 0x208 }.setReg 1 7) 0xE1A1 (fun t => t.pc) = some 0x020C := by decide +kernel

/-- V-K8: the timers still run. -/
theorem test_ldVxK_holds :
    tickSees ({ booted with pc := 0x208, dt := 5 }.setReg 1 0xEE) 0xF10A (fun t => (t.pc, t.reg 1, t.dt)) = some (0x0208, 0xEE, 4) := by decide +kernel

/-- V-K9: the lowest key down. -/
theorem test_ldVxK :
    tickSees ({ booted with pc := 0x208, keys := 0x1080 }.setReg 1 0xEE) 0xF10A (fun t => (t.reg 1, t.pc)) = some (0x07, 0x020A) := by decide +kernel

/-- V-T1: read before the tick's decrement. -/
theorem test_ldVxDt :
    tickSees { booted with dt := 0x39 } 0xF207 (fun t => (t.reg 2, t.dt)) = some (0x39, 0x38) := by decide +kernel

/-- V-T2 with `TIMER_DIVIDER = 2`. -/
theorem test_ldDtVx :
    tickSees ((bootedWith otherParams).setReg 0 0x3C) 0xF015 (fun t => (t.dt, t.tdiv)) = some (0x3C, 1) := by decide +kernel

/-- V-T2. -/
theorem test_ldDtVx_counts :
    tickSees (booted.setReg 0 0x3C) 0xF015 (fun t => t.dt) = some 0x3B := by decide +kernel

/-- V-T3. -/
theorem test_ldStVx :
    tickSees (booted.setReg 0 0x0A) 0xF018 (fun t => t.st) = some 0x09 := by decide +kernel

/-! ### The loop -/

/-- V-L1: no timer update, no key refresh, `cancel` not looked at. -/
theorem test_illegal_word :
    tickSees ({ booted with dt := 5, inputs := ⟨0, true, 0xFFFF, true⟩ }.setReg 3 9) 0xFFFF (fun t => (t.result, t.ir, t.pc, t.dt, t.keys, t.lstate)) = some (.fault (.decodeError 0xFFFF), 0xFFFF, 0x200, 5, 0, .failed) := by decide +kernel

/-- V-L5: phases 1 to 4 stay. -/
theorem test_present_fails :
    tickSees { booted with dt := 3, inputs := ⟨0, false, 0xFFFF, true⟩ } 0x6005 (fun t => (t.reg 0, t.pc, t.dt, t.result, t.keys)) = some (5, 0x202, 2, .fault .rendererError, 0) := by decide +kernel

/-- V-L6. -/
theorem test_cancelled :
    tickSees { booted with inputs := ⟨0, true, 0x8000, true⟩ } 0x6005 (fun t => (t.reg 0, t.keys, t.lstate, t.result)) = some (5, 0x8000, .stopped, .cancelled) := by decide +kernel

/-- V-L3: nothing is fetched from 4095. -/
theorem test_fetch_bounds :
    (match step { booted with pc := 4095, ir := 0x1234, host := [.tick quietInputs] } with
     | .next t => some (t.result, t.ir, t.pc)
     | .fault _ => none
     | .refused _ => none) = some (.fault (.memoryBoundsError 4095), 0x1234, 4095) := by decide +kernel

/-- V-L10, V-L11 (D3): the image survives `Initialize`, and the font is there after it. -/
theorem test_boot :
    (match core.run 5 { State.reset with
        host := [.loadCmd [0x6A, 0x07], .initializeCmd, .initializeCmd, .runCmd true, .tick quietInputs] } with
     | .next t => some (t.reg 0xA, t.pc, Memory.read t.mem 0x50, t.lstate, t.host)
     | .fault _ => none
     | .refused _ => none) = some (0x07, 0x202, 0xF0, .running, []) := by decide +kernel

/-- V-L9 and R204: refused events, and the event without a meaning. -/
theorem test_refused :
    (match step { State.reset with host := [.runCmd true] } with
     | .next t => some (t.status, t.lstate)
     | .fault _ => none
     | .refused _ => none) = some (.refused, .uninitialized) := by decide +kernel

theorem test_concurrent_launch :
    (match step { State.reset with host := [.concurrentLaunch] } with
     | .next _ => false
     | .fault f => f = .concurrentLaunch
     | .refused _ => false) = true := by decide +kernel

/-- The interface's own placing: from reset the very next step runs the word. -/
theorem test_withFetchWord : tickSees State.reset 0x6A42 (fun t => (t.reg 0xA, t.pc)) = some (0x42, 2) := by
  decide +kernel

/-- V-D16, S6. -/
theorem test_delta : delta (FrameBuf.clear.flip 200) (FrameBuf.clear.flip 5) = [(5, true), (200, false)] := by
  decide +kernel

/-- R50, R60: memory in its canonical form: a zero written over a byte takes the entry out. -/
theorem test_memory_canonical : Memory.write (memAt 0x300 [1, 2]) 0x300 0 = [(0x301, 2)] := by decide

/-! ## The hypotheses of the statements of Certificates/Slice0/Obligations.lean, met by concrete states

One theorem for each clause, at a boundary of its range. -/

theorem witness_DecodeInvertsEncode :
    (Instr.drw 15 15 15).wellFormed = true := by decide +kernel

theorem witness_EncodeInvertsDecode :
    decode 0xFF65 = .ok (.ldRegs 15) := by decide +kernel

theorem witness_DecodeAcceptsExactlyTheOpcodeMap :
    (⟨0xF00F, 0x800E⟩ : OpcodeRow) ∈ opcodeRows ∧ (0x8ABE : Word) &&& 0xF00F = 0x800E := by decide +kernel

/-- The clause for X other than 15, with the default parameters. -/
theorem witness_AddWithCarryOut_SubtractBothOrders_ShiftsByOne :
    (0xE : Reg) ≠ regF ∧ booted.params.subFlag = .borrow ∧ booted.params.shiftSource = .vx := by decide +kernel

theorem witness_SubtractBothOrders_ShiftsByOne_other :
    (0 : Reg) ≠ regF ∧ (bootedWith otherParams).params.subFlag = .notBorrow ∧
      (bootedWith otherParams).params.shiftSource = .vy := by decide +kernel

theorem witness_ShiftsByOne :
    (booted.params.shiftSource = .vx → booted.reg 1 = booted.reg 1) ∧
      (booted.params.shiftSource = .vy → booted.reg 1 = booted.reg 2) := ⟨fun _ => rfl, fun h => by simp [booted, State.reset, State.powerOn, defaultParams] at h⟩

theorem witness_CallPushesOrOverflows :
    (15 : Fin 16).val = ({ booted with sp := 15 } : State).sp.val ∧ ({ booted with sp := 16 } : State).sp.val = 16 := by decide +kernel

theorem witness_ReturnPopsOrUnderflows :
    (15 : Fin 16).val + 1 = ({ booted with sp := 16 } : State).sp.val ∧
      (0 : Fin 16).val + 1 = ({ booted with sp := 1 } : State).sp.val ∧ booted.sp.val = 0 := by decide +kernel

theorem witness_ReturnResumesAfterCall :
    ∃ t, booted.sp.val < 16 ∧ exec (.call 0x300) booted = .next t ∧ t.sp = t.sp ∧
      ∀ k : Fin 16, k.val = booted.sp.val → t.stack[k] = t.stack[k] := ⟨_, by decide, rfl, rfl, fun _ _ => rfl⟩

/-- A call, and within it another call and its return: the hypotheses still hold, though the stack differs. -/
theorem witness_ReturnResumesAfterCall_nested :
    ∃ t u v, exec (.call 0x300) { booted with sp := 14 } = .next t ∧ exec (.call 0x400) t = .next u ∧
      exec .ret u = .next v ∧ v.sp = t.sp ∧ v.stack[(14 : Fin 16)] = t.stack[(14 : Fin 16)] ∧ v.stack ≠ t.stack :=
  ⟨_, _, _, rfl, rfl, rfl, by decide, by decide, by decide⟩

/-- Also of `KeyNumberFromRegister`: 15 and 16 are where its clauses meet. -/
theorem witness_FontSpriteAddress :
    (booted.setReg 0 0x1A).params.keyIndex = .mask ∧
      (((bootedWith otherParams).setReg 0 15).reg 0).toNat ≤ 15 ∧
      ((bootedWith otherParams).setReg 0 16).params.keyIndex = .fault ∧
      15 < (((bootedWith otherParams).setReg 0 16).reg 0).toNat := by decide +kernel

theorem witness_StoreDecimalDigits :
    Memory.wf booted.mem = true ∧ ({ booted with i := 4093 } : State).i.toNat + 3 ≤ 4096 ∧
      4096 < ({ booted with i := 4094 } : State).i.toNat + 3 := by decide +kernel

theorem witness_StoreRegisters_LoadRegisters :
    Memory.wf booted.mem = true ∧ ({ booted with i := 4080 } : State).i.toNat + (15 : Reg).val + 1 ≤ 4096 ∧
      4096 < ({ booted with i := 4081 } : State).i.toNat + (15 : Reg).val + 1 := by decide +kernel

theorem witness_StoredWordIsFetchedNext :
    ∃ t, Memory.wf booted.mem = true ∧ 1 ≤ (1 : Reg).val ∧
      ({ booted with i := 0x202 } : State).i.toNat = booted.pc.toNat + 2 ∧
      ({ booted with i := 0x202 } : State).i.toNat + (1 : Reg).val + 1 ≤ 4096 ∧
      exec (.stRegs 1) { booted with i := 0x202 } = .next t := ⟨_, by decide, by decide, by decide, by decide, rfl⟩

theorem witness_DrawTogglesCoveredCells :
    15 ≤ 15 ∧ (15 = 0 ∨ ({ booted with i := 4081 } : State).i.toNat + 15 ≤ 4096) := by decide +kernel

/-- A one-dot sprite at I, nothing drawn yet. -/
def dotState : State := { booted with i := 0x300, mem := memAt 0x300 [0x80] }

/-- The same with cell 0 set. -/
def dotDrawn : State := { dotState with fb := FrameBuf.clear.flip 0 }

/-- The dot covers cell 0. -/
theorem dot_covers (s : State) (hm : s.mem = dotState.mem) (hi : s.i = dotState.i) (hv : s.v = dotState.v)
    (hp : s.params = dotState.params) : spriteCovers s 0 1 1 0 0 := by
  refine ⟨0, 0, by decide, by decide, ?_, ?_⟩
  · rw [hm, hi]
    decide +kernel
  · simp [hp, State.reg, hv, dotState, booted, State.reset, State.powerOn, defaultParams]

/-- A cell that a sprite covers, a collision, and a cell that is clear before the draw. -/
theorem witness_DrawTogglesCoveredCells_covered :
    spriteCovers dotState 0 1 1 0 0 ∧ spriteCollides dotDrawn 0 1 1 ∧ spriteSetsACell dotState 0 1 1 :=
  ⟨dot_covers _ rfl rfl rfl rfl,
   ⟨0, 0, by decide, by decide, dot_covers _ rfl rfl rfl rfl, by decide +kernel⟩,
   ⟨0, 0, by decide, by decide, dot_covers _ rfl rfl rfl rfl, by decide +kernel⟩⟩

/-- With no rows nothing is covered. -/
theorem witness_DrawTogglesCoveredCells_uncovered :
    ¬ spriteCovers booted 0 1 0 0 0 ∧ ¬ spriteCollides booted 0 1 0 ∧ ¬ spriteSetsACell booted 0 1 0 := by
  refine ⟨?_, ?_, ?_⟩
  · rintro ⟨r, c, h, -⟩
    omega
  · rintro ⟨col, row, -, -, ⟨r, c, h, -⟩, -⟩
    omega
  · rintro ⟨col, row, -, -, ⟨r, c, h, -⟩, -⟩
    omega

theorem witness_DrawOutOfBoundsFaults :
    0 < 1 ∧ 4096 < ({ booted with i := 4096 } : State).i.toNat + 1 := by decide +kernel

theorem witness_DrawingTwiceRestores :
    ∃ t w, 1 ≤ 15 ∧ (1 = 0 ∨ booted.i.toNat + 1 ≤ 4096) ∧ exec (.drw 0 1 1) booted = .next t ∧ t.fb = t.fb ∧
      t.mem = booted.mem ∧ t.i = booted.i ∧ t.params = booted.params ∧ t.reg 0 = booted.reg 0 ∧
      t.reg 1 = booted.reg 1 ∧ exec (.drw 0 1 1) t = .next w :=
  ⟨_, _, by decide, by decide, rfl, rfl, rfl, rfl, rfl, by decide +kernel, by decide +kernel, rfl⟩

theorem witness_KeySkips :
    hexOperand booted.params.keyIndex ((booted.setReg 1 0xFF).reg 1) = some 15 ∧
      hexOperand .fault ((booted.setReg 1 15).reg 1) = some 15 := by decide +kernel

theorem witness_WaitForKey :
    (∀ k, k < 16 → booted.keys.getLsbD k = false) ∧
      (({ booted with keys := 0x8000 } : State).keys.getLsbD 15 = true ∧
        ∀ j, j < 15 → ({ booted with keys := 0x8000 } : State).keys.getLsbD j = false) ∧
      (({ booted with keys := 0x0001 } : State).keys.getLsbD 0 = true) := by decide +kernel

theorem witness_WritersAreThoseListed :
    mayWrite booted (.ldRegs 3) (.reg 4) = false ∧ mayWrite booted (.ldRegs 3) (.reg 3) = true ∧
      mayWrite booted (.stRegs 3) .i = false ∧ mayWrite (bootedWith otherParams) (.stRegs 3) .i = true := by
  decide +kernel

/-- The first and last stored byte may change, their neighbours not; likewise the slot a call writes. -/
theorem witness_WritersAreThoseListed_stores :
    mayWrite dotState (.stRegs 3) (.byte 0x2FF) = false ∧ mayWrite dotState (.stRegs 3) (.byte 0x300) = true ∧
      mayWrite dotState (.stRegs 3) (.byte 0x303) = true ∧ mayWrite dotState (.stRegs 3) (.byte 0x304) = false ∧
      mayWrite dotState (.ldB 3) (.byte 0x302) = true ∧ mayWrite dotState (.ldB 3) (.byte 0x303) = false ∧
      mayWrite dotState (.call 0x300) (.slot 0) = true ∧ mayWrite dotState (.call 0x300) (.slot 1) = false := by
  decide +kernel

theorem witness_ExecuteIsAllOrNothing :
    ∃ t, exec .ret booted = .next t ∧ t.lstate = .failed := ⟨_, rfl, rfl⟩

theorem witness_ExecuteReadsNoHiddenState :
    ∀ x nn, Instr.cls ≠ .rnd x nn := by
  intro x nn h
  cases h

theorem witness_NoInstructionReadsSoundTimer :
    ∀ x, Instr.cls ≠ .ldStVx x := by
  intro x h
  cases h

/-- `booted` with the word 6A42 at PC and one tick pending. -/
def ticking : State := { booted with mem := memAt 0x200 [0x6A, 0x42], host := [.tick quietInputs] }

theorem witness_StepRunsTheDecodedInstruction :
    ticking.lstate = .running ∧ ticking.host = .tick quietInputs :: [] ∧ ticking.pc.toNat ≤ 4094 ∧
      decode (Memory.read ticking.mem ticking.pc.toNat ++ Memory.read ticking.mem (ticking.pc.toNat + 1)) =
        .ok (.ldImm 0xA 0x42) := by decide +kernel

/-- An execute phase that ends in a fault, and one that does not. -/
theorem witness_StepRunsTheDecodedInstruction_ends :
    ∃ t u, exec .ret booted = .next t ∧ t.lstate = .failed ∧ exec .cls booted = .next u ∧ u.lstate ≠ .failed := ⟨_, _, rfl, rfl, rfl, by decide⟩

/-- 4094 is the last PC that can be fetched from, 4095 the first that cannot. -/
theorem witness_FetchReadsBigEndianOrFaults :
    ticking.lstate = .running ∧ ticking.host = .tick quietInputs :: [] ∧
      4094 < ({ ticking with pc := 4095 } : State).pc.toNat ∧
      ({ ticking with pc := 4094 } : State).pc.toNat ≤ 4094 := by decide +kernel

theorem witness_IllegalWordEndsTheTick :
    ({ ticking with mem := [] } : State).lstate = .running ∧
      ({ ticking with mem := [] } : State).host = .tick quietInputs :: [] ∧
      ({ ticking with mem := [] } : State).pc.toNat ≤ 4094 ∧
      decode ({ ticking with mem := [] } : State).fetchWord = .error .illegalFamily0 := by decide +kernel

/-- The invariant at a running state (the premise of `StepKeepsTheInvariant`, `FinalStateShowsItsCause` and
`InstructionFaultsArePrecise`). -/
theorem witness_Inv : booted.Inv ∧ booted.causeShown := by
  refine ⟨⟨by decide, by decide, by decide, by decide, by decide, by decide⟩, ?_⟩
  trivial

theorem witness_Inv_pending : ({ booted with host := [.tick quietInputs] } : State).Inv :=
  ⟨by decide, by decide, by decide, by decide, by decide, by decide⟩

theorem witness_InstructionFaultsArePrecise :
    ∃ t, ({ booted with host := [.tick quietInputs] } : State).Inv ∧
      ({ booted with host := [.tick quietInputs] } : State).lstate = .running ∧
      step { booted with host := [.tick quietInputs] } = .next t ∧ t.result = .fault (.decodeError 0) ∧
      FaultInfo.decodeError 0 ≠ .rendererError :=
  ⟨_, witness_Inv_pending, rfl,
    step_tick_illegal (inp := quietInputs) (rest := []) (e := .illegalFamily0) rfl rfl (by decide) (by decide),
    by decide +kernel, by decide⟩

/-- Also of `FinalStateShowsItsCause`, `TimersFallByAtMostOne`, `StackPointerMovesOnlyByCallAndReturn` and
`LoopMovesOnlyAlongItsTable`. -/
theorem witness_StepKeepsTheInvariant :
    ∃ t, ({ booted with host := [.tick quietInputs] } : State).Inv ∧
      ({ booted with host := [.tick quietInputs] } : State).causeShown ∧
      step { booted with host := [.tick quietInputs] } = .next t :=
  ⟨_, witness_Inv_pending, trivial,
    step_tick_illegal (inp := quietInputs) (rest := []) (e := .illegalFamily0) rfl rfl (by decide) (by decide)⟩

theorem witness_TimerUpdateDividesTicks :
    booted.tdiv + 1 = booted.params.timerDivider ∧
      (bootedWith otherParams).tdiv + 1 ≠ (bootedWith otherParams).params.timerDivider := by decide +kernel

theorem witness_PresentRefreshCancel :
    ({ booted with inputs := ⟨0, false, 0, true⟩ } : State).inputs.presentOk = false ∧
      ({ booted with inputs := ⟨0, true, 0xFFFF, true⟩ } : State).inputs.presentOk = true ∧
      ({ booted with inputs := ⟨0, true, 0xFFFF, true⟩ } : State).inputs.cancel = true ∧ booted.inputs.presentOk = true ∧
      booted.inputs.cancel = false := by decide +kernel

theorem witness_TimersFallByAtMostOne :
    (∀ x, decode ticking.fetchWord ≠ .ok (.ldDtVx x)) ∧ (∀ x, decode ticking.fetchWord ≠ .ok (.ldStVx x)) := by decide +kernel

/-- Power-on, with `Initialize` pending. -/
def initState : State := { State.reset with host := [.initializeCmd] }

theorem witness_InitializeWritesFontAndRegisters :
    Memory.wf initState.mem = true ∧ initState.host = .initializeCmd :: [] ∧
      (initState.lstate = .uninitialized ∨ initState.lstate = .ready) := by decide

/-- `Ready`, with the load of an image of n bytes pending. -/
def loadState (n : Nat) : State :=
  { State.reset with lstate := .ready, host := [.loadCmd (List.replicate n 0x6A)] }

/-- 3584 bytes fit, 3585 do not. -/
theorem witness_LoadCopiesTheImageOrNothing :
    (∀ n, (loadState n).host = .loadCmd (List.replicate n 0x6A) :: [] ∧
      ((loadState n).lstate = .uninitialized ∨ (loadState n).lstate = .ready) ∧
      Memory.wf (loadState n).mem = true) ∧
    0x200 + (List.replicate 3584 (0x6A : Byte)).length ≤ 4096 ∧
    4096 < 0x200 + (List.replicate 3585 (0x6A : Byte)).length :=
  ⟨fun _ => ⟨rfl, .inr rfl, rfl⟩, by rw [List.length_replicate], by rw [List.length_replicate]; decide⟩

/-- Both levels of `renderer_bound`. -/
theorem witness_RunStartsTheLoopOrFails :
    ∀ b, ({ State.reset with lstate := .ready, host := [.runCmd b] } : State).host = .runCmd b :: [] ∧
      ({ State.reset with lstate := .ready, host := [.runCmd b] } : State).lstate = .ready :=
  fun _ => ⟨rfl, rfl⟩

/-- `booted` in a loop state, with one event pending. -/
def pendingIn (l : LoopState) (e : HostEvent) : State := { booted with lstate := l, host := [e] }

/-- One state for each kind of event. -/
theorem witness_EventsOutOfPlaceAreRefused :
    (∀ l e, (pendingIn l e).host = e :: [] ∧ (pendingIn l e).lstate = l) ∧
      (pendingIn .running .initializeCmd).lstate = .running ∧ (pendingIn .stopped (.loadCmd [])).lstate = .stopped ∧
      (pendingIn .uninitialized (.runCmd true)).lstate ≠ .ready ∧
      (pendingIn .ready (.tick quietInputs)).lstate ≠ .running :=
  ⟨fun _ _ => ⟨rfl, rfl⟩, rfl, rfl, by decide, by decide⟩

theorem witness_StoppedAndFailedAreFinal :
    ∃ t, (({ booted with lstate := .failed, host := [.tick quietInputs, .runCmd true] } : State).lstate = .stopped ∨
        ({ booted with lstate := .failed, host := [.tick quietInputs, .runCmd true] } : State).lstate = .failed) ∧
      core.run 2 { booted with lstate := .failed, host := [.tick quietInputs, .runCmd true] } = .next t :=
  ⟨_, .inr rfl, rfl⟩

theorem witness_OnlyConcurrentLaunchStops :
    ({ booted with host := [.concurrentLaunch] } : State).host = .concurrentLaunch :: [] ∧ booted.host = [] ∧
      ∀ rest, booted.host ≠ .concurrentLaunch :: rest := ⟨rfl, rfl, fun _ h => by cases h⟩

theorem witness_StateAtFirstTick :
    ∃ t, (∀ e ∈ [HostEvent.initializeCmd, .loadCmd [0x12, 0x00], .runCmd true], e.isCommand = true) ∧
      core.run 3 { State.powerOn otherParams with host := [.initializeCmd, .loadCmd [0x12, 0x00], .runCmd true] } = .next t ∧
      t.lstate = .running := ⟨_, by decide, rfl, rfl⟩

/-- Two images, the second shorter, and one refused because the loop runs: the first's last byte stays. -/
theorem witness_StateAtFirstTick_image :
    imageAfterCommands .uninitialized []
      [.loadCmd [1, 2, 3], .initializeCmd, .loadCmd [4], .runCmd true, .loadCmd [9, 9, 9, 9]] = [4, 2, 3] := by
  decide +kernel

theorem witness_CommandsKeepTheBootState :
    ∃ s t, s = { State.powerOn otherParams with host := [.loadCmd [0x12, 0x00]] } ∧ s.BootState otherParams [] ∧
      s.host = .loadCmd [0x12, 0x00] :: [] ∧ (HostEvent.loadCmd [0x12, 0x00]).isCommand = true ∧
      step s = .next t := by
  refine ⟨_, _, rfl, ?_, rfl, rfl, rfl⟩
  constructor <;> try rfl
  · exact .inl rfl
  · intro r
    simp [State.reg, State.powerOn]
  · intro k
    simp [State.powerOn]
  · intro c _
    exact FrameBuf.cell_clear c
  all_goals intros; rfl

theorem witness_PowerOnState :
    ∃ s, s = State.powerOn otherParams := ⟨_, rfl⟩

end Sys2Proof.Tests
end

section
/-! PROOFS. The call stack seen from 2NNN and 00EE (40_flow.md R102, R103): what each does when it completes, and
what the two do together (95_test_vectors.md S4). -/

namespace Sys2Proof.Machine

/-- R102 with room on the stack: `k` is the free slot that SP numbers. -/
theorem exec_call_of_room (nnn : BitVec 12) {s : State} {k : Fin 16} (hk : s.sp = k.castSucc) :
    exec (.call nnn) s =
      .next { s with stack := s.stack.set k (addWord s.pc 2), sp := k.succ, pc := wordOfNNN nnn } := by
  have hexec : exec (.call nnn) s = execCall nnn s := rfl
  rw [hexec, execCall]
  cases hpush : s.push (addWord s.pc 2) with
  | none =>
    have hfull := State.push_none.mp hpush
    have : k.val = 16 := by simpa [hk] using hfull
    omega
  | some t =>
    obtain ⟨-, p, hp, rfl⟩ := State.push_some hpush
    obtain rfl : p = k.succ := Fin.ext (by simp [hp, hk])
    simp [State.setPC, hk]

/-- R103 with an address stacked: `k` is the slot of the newest one. -/
theorem exec_ret_of_stacked {s : State} {k : Fin 16} (hk : s.sp = k.succ) :
    exec .ret s = .next { s with sp := k.castSucc, pc := s.stack[k] } := by
  have hexec : exec .ret s = execRet s := rfl
  rw [hexec, execRet]
  cases hpop : s.pop with
  | none =>
    have hempty := State.pop_none.mp hpop
    simp [hk] at hempty
  | some popped =>
    obtain ⟨ret, t⟩ := popped
    obtain ⟨-, p, rfl, hp, rfl⟩ := State.pop_some hpop
    obtain rfl : p = k.castSucc := Fin.ext (by simp [hp, hk])
    simp [State.setPC, hk]

/-- Settles O16: the return pops the slot that the call pushed, which holds the call's PC + 2. -/
theorem returnResumesAfterCall : Obligations.ReturnResumesAfterCall := by
  intro nnn s t u hroom hcall hsp hslot
  obtain ⟨k, hk⟩ : ∃ k : Fin 16, s.sp = k.castSucc := ⟨⟨s.sp.val, hroom⟩, rfl⟩
  rw [exec_call_of_room nnn hk] at hcall
  cases hcall
  have hpushed : u.stack[k] = addWord s.pc 2 := by simpa using hslot k (by simp [hk])
  exact ⟨_, exec_ret_of_stacked hsp, by simp [hpushed, addWord_toNat], hk.symm⟩

end Sys2Proof.Machine
end

section
/-! SUPPORT. The frame of each shared operation, piece by piece: a piece of state that an operation does not write
agrees with an earlier state after it exactly when it did before it. -/

namespace Sys2Proof.Machine

/-! ## Agreement on one piece -/

@[simp] theorem Part.same_refl (p : Part) (s : State) : p.same s s := by
  cases p <;> rfl

/-- What is the same after an operation may be read before it. -/
theorem Part.same_iff_of_same {p : Part} {s t u : State} (h : p.same t u) : p.same s u ↔ p.same s t := by
  cases p <;> exact iff_of_eq (congrArg (· = _) h)

variable {p : Part} {s t : State}

/-! ## Registers, I, PC -/

@[simp] theorem Part.same_setReg {x : Reg} {b : Byte} (h : p ≠ .reg x) : p.same s (t.setReg x b) ↔ p.same s t := by
  refine Part.same_iff_of_same ?_
  cases p with
  | reg r => simpa [Part.same] using fun hr : r = x => absurd (congrArg Part.reg hr) h
  | _ => rfl

@[simp] theorem Part.same_setResultAndFlag {x : Reg} {a b : Byte} (hx : p ≠ .reg x) (hf : p ≠ .reg regF) :
    p.same s (t.setResultAndFlag x a b) ↔ p.same s t :=
  (Part.same_setReg hf).trans (Part.same_setReg hx)

@[simp] theorem Part.same_loadRegsUpTo {x : Reg} (h : p.isRegThrough x = false) :
    p.same s (t.loadRegsUpTo x) ↔ p.same s t := by
  refine Part.same_iff_of_same ?_
  cases p with
  | reg r =>
    have hr : ¬ r ≤ x := of_decide_eq_false h
    simp [Part.same, State.reg_loadRegsUpTo, hr]
  | _ => simp [Part.same]

@[simp] theorem Part.same_setIndex {w : Word} (h : p ≠ .i) : p.same s (t.setIndex w) ↔ p.same s t := by
  refine Part.same_iff_of_same ?_
  cases p with
  | i => exact absurd rfl h
  | _ => rfl

@[simp] theorem Part.same_bumpIndex {n : Nat} (h : t.params.indexIncrement = true → p ≠ .i) :
    p.same s (t.bumpIndex n) ↔ p.same s t := by
  unfold State.bumpIndex
  split
  next hinc => exact Part.same_setIndex (h hinc)
  next => exact Iff.rfl

@[simp] theorem Part.same_setPC {w : Word} (h : p ≠ .pc) : p.same s (t.setPC w) ↔ p.same s t := by
  refine Part.same_iff_of_same ?_
  cases p with
  | pc => exact absurd rfl h
  | _ => rfl

@[simp] theorem Part.same_advance (h : p ≠ .pc) : p.same s t.advance ↔ p.same s t := Part.same_setPC h

@[simp] theorem Part.same_skipIf {c : Bool} (h : p ≠ .pc) : p.same s (t.skipIf c) ↔ p.same s t := Part.same_setPC h

/-! ## Memory, frame buffer, timers -/

/-- It holds for memory in any form: a store never moves a byte that it does not write. -/
@[simp] theorem Part.same_storeAtIndex {bytes : List Byte} (h : p.isStored t.i bytes.length = false) :
    p.same s (t.storeAtIndex bytes) ↔ p.same s t := by
  refine Part.same_iff_of_same ?_
  cases p with
  | byte a =>
    refine read_storeAtIndex_outside t bytes fun ha => ?_
    simp [(isStored_iff _ _ _).mpr ha] at h
  | _ => rfl

@[simp] theorem Part.same_setFrame {fb : FrameBuf} (h : p.isCell = false) : p.same s (t.setFrame fb) ↔ p.same s t := by
  refine Part.same_iff_of_same ?_
  cases p with
  | cell c => cases h
  | _ => rfl

@[simp] theorem Part.same_setDelay {b : Byte} (h : p ≠ .dt) : p.same s (t.setDelay b) ↔ p.same s t := by
  refine Part.same_iff_of_same ?_
  cases p with
  | dt => exact absurd rfl h
  | _ => rfl

@[simp] theorem Part.same_setSound {b : Byte} (h : p ≠ .st) : p.same s (t.setSound b) ↔ p.same s t := by
  refine Part.same_iff_of_same ?_
  cases p with
  | st => exact absurd rfl h
  | _ => rfl

/-! ## Call stack, fault entry -/

/-- A push writes SP and the slot that SP numbered. -/
theorem Part.same_of_push {ret : Word} (hpush : s.push ret = some t) (hsp : p ≠ .sp)
    (hslot : p.isSlotAt s.sp.val = false) : p.same s t := by
  obtain ⟨hroom, q, -, rfl⟩ := State.push_some hpush
  cases p with
  | sp => exact absurd rfl hsp
  | slot k =>
    have hk : k.val ≠ s.sp.val := of_decide_eq_false hslot
    exact Vector.getElem_set_ne hroom k.isLt hk.symm
  | _ => rfl

/-- A pop writes SP only: the slot keeps its value. -/
theorem Part.same_of_pop {ret : Word} (hpop : s.pop = some (ret, t)) (hsp : p ≠ .sp) : p.same s t := by
  obtain ⟨-, q, -, -, rfl⟩ := State.pop_some hpop
  cases p with
  | sp => exact absurd rfl hsp
  | _ => rfl

@[simp] theorem Part.same_takeFault {f : FaultInfo} (h : p.isFaultEntry = false) :
    p.same s (t.takeFault f) ↔ p.same s t :=
  Part.same_iff_of_same (onlyChanges_takeFault t f p (by simpa [Part.isFaultEntry] using h))

end Sys2Proof.Machine
end

section
/-! PROOFS. What an instruction may write (10_state.md, 20_memory.md R52, 60_exceptions.md R240): one rule for each
shape of execute phase, put together instruction by instruction. -/

namespace Sys2Proof.Machine

/-- The answer `r` is a next state that agrees with `s` on every piece of state outside `w`. -/
def AnswersWithin (w : Part → Bool) (s : State) (r : StepResult) : Prop :=
  ∃ t, r = .next t ∧ ∀ p : Part, w p = false → p.same s t

/-- `AnswersWithin` states for one instruction what `WritersAreThoseListed` states for all. -/
theorem writersAreThoseListed_iff :
    Obligations.WritersAreThoseListed ↔ ∀ (i : Instr) (s : State), AnswersWithin (mayWrite s i) s (exec i s) :=
  Iff.rfl

variable {s : State} {w : Part → Bool}

/-! ## Instructions that complete

The frame rules of the operations take the updates off one by one: a piece outside the list is written by none. -/

theorem answersWithin_complete {t : State} (h : ∀ p : Part, w p = false → p.same s t) :
    AnswersWithin w s (complete t) :=
  ⟨t, rfl, h⟩

theorem answersWithin_setPC {a : Word} : AnswersWithin (fun p => p = .pc) s (complete (s.setPC a)) :=
  answersWithin_complete fun p hp => by simp_all

theorem answersWithin_skipIf {c : Bool} : AnswersWithin (fun p => p = .pc) s (complete (s.skipIf c)) :=
  answersWithin_setPC

theorem answersWithin_setReg {x : Reg} {b : Byte} :
    AnswersWithin (fun p => p = .pc || p = .reg x) s (complete (s.setReg x b).advance) :=
  answersWithin_complete fun p hp => by simp_all

theorem answersWithin_setResultAndFlag {x : Reg} {a b : Byte} :
    AnswersWithin (fun p => p = .pc || p = .reg x || p = .reg regF) s
      (complete (s.setResultAndFlag x a b).advance) :=
  answersWithin_complete fun p hp => by simp_all

theorem answersWithin_setIndex {a : Word} :
    AnswersWithin (fun p => p = .pc || p = .i) s (complete (s.setIndex a).advance) :=
  answersWithin_complete fun p hp => by simp_all

theorem answersWithin_setDelay {b : Byte} :
    AnswersWithin (fun p => p = .pc || p = .dt) s (complete (s.setDelay b).advance) :=
  answersWithin_complete fun p hp => by simp_all

theorem answersWithin_setSound {b : Byte} :
    AnswersWithin (fun p => p = .pc || p = .st) s (complete (s.setSound b).advance) :=
  answersWithin_complete fun p hp => by simp_all

theorem answersWithin_setFrame {fb : FrameBuf} :
    AnswersWithin (fun p => p = .pc || p.isCell) s (complete (s.setFrame fb).advance) :=
  answersWithin_complete fun p hp => by simp_all

/-- A completed draw: the cells, and the collision flag. -/
theorem answersWithin_setFrame_setReg {fb : FrameBuf} {x : Reg} {b : Byte} :
    AnswersWithin (fun p => p = .pc || p = .reg x || p.isCell) s (complete ((s.setFrame fb).setReg x b).advance) :=
  answersWithin_complete fun p hp => by simp_all

theorem answersWithin_storeAtIndex {bytes : List Byte} {n : Nat} (hn : bytes.length = n) :
    AnswersWithin (fun p => p = .pc || p.isStored s.i n) s (complete (s.storeAtIndex bytes).advance) := by
  subst hn
  exact answersWithin_complete fun p hp => by simp_all

theorem answersWithin_storeAtIndex_bumpIndex {bytes : List Byte} {n k : Nat} (hn : bytes.length = n) :
    AnswersWithin (fun p => p = .pc || (s.params.indexIncrement && p = .i) || p.isStored s.i n) s
      (complete ((s.storeAtIndex bytes).bumpIndex k).advance) := by
  subst hn
  exact answersWithin_complete fun p hp => by simp_all

theorem answersWithin_loadRegsUpTo_bumpIndex {x : Reg} {k : Nat} :
    AnswersWithin (fun p => p = .pc || (s.params.indexIncrement && p = .i) || p.isRegThrough x) s
      (complete ((s.loadRegsUpTo x).bumpIndex k).advance) :=
  answersWithin_complete fun p hp => by simp_all

/-- FX0A: a hold writes nothing, a key its register (R184). -/
theorem answersWithin_ldVxK (x : Reg) (s : State) :
    AnswersWithin (fun p => p = .pc || p = .reg x) s (execLdVxK x s) := by
  unfold execLdVxK
  split
  next => exact answersWithin_complete fun p _ => p.same_refl s
  next => exact answersWithin_setReg

/-! ## Instructions that may take a fault: fault entry joins the list of what is written (R240) -/

theorem AnswersWithin.orFault {r : StepResult} (h : AnswersWithin w s r) :
    AnswersWithin (fun p => w p || p.isFaultEntry) s r := by
  obtain ⟨t, rfl, ht⟩ := h
  exact ⟨t, rfl, fun p hp => ht p (Bool.or_eq_false_iff.mp hp).1⟩

theorem answersWithin_raise {f : FaultInfo} : AnswersWithin (fun p => w p || p.isFaultEntry) s (raise f s) :=
  answersWithin_complete fun p hp => by simp_all

/-- An access of data at I: what its instruction writes, or the fault of R57. -/
theorem answersWithin_withData {n : Nat} {r : StepResult} (h : AnswersWithin w s r) :
    AnswersWithin (fun p => w p || p.isFaultEntry) s (withData s n r) := by
  unfold withData
  split
  next => exact h.orFault
  next => exact answersWithin_raise

/-- A key or digit number from a register: what its instruction writes with it, or the fault of R143 and R181. -/
theorem answersWithin_withHexOperand {x : Reg} {r : Fin 16 → StepResult} (h : ∀ k, AnswersWithin w s (r k)) :
    AnswersWithin (fun p => w p || p.isFaultEntry) s (withHexOperand s x r) := by
  unfold withHexOperand
  split
  next k _ => exact (h k).orFault
  next => exact answersWithin_raise

/-- 2NNN: a push and a jump, or the fault of R102. -/
theorem answersWithin_call (nnn : BitVec 12) (s : State) :
    AnswersWithin (fun p => p = .pc || p = .sp || p.isSlotAt s.sp.val || p.isFaultEntry) s (execCall nnn s) := by
  unfold execCall
  split
  next t hpush =>
    refine (answersWithin_complete fun p hp => ?_).orFault
    obtain ⟨⟨hpc, hsp⟩, hslot⟩ : (p ≠ .pc ∧ p ≠ .sp) ∧ p.isSlotAt s.sp.val = false := by simpa using hp
    exact (Part.same_setPC hpc).mpr (Part.same_of_push hpush hsp hslot)
  next => exact answersWithin_raise

/-- 00EE: a pop and a jump, or the fault of R103. -/
theorem answersWithin_ret (s : State) :
    AnswersWithin (fun p => p = .pc || p = .sp || p.isFaultEntry) s (execRet s) := by
  unfold execRet
  split
  next ret t hpop =>
    refine (answersWithin_complete fun p hp => ?_).orFault
    obtain ⟨hpc, hsp⟩ : p ≠ .pc ∧ p ≠ .sp := by simpa using hp
    exact (Part.same_setPC hpc).mpr (Part.same_of_pop hpop hsp)
  next => exact answersWithin_raise

/-! ## All instructions -/

/-- Every instruction's execute phase has one of the shapes above, and the rule of that shape gives its list. -/
theorem exec_answersWithin_mayWrite (i : Instr) (s : State) : AnswersWithin (mayWrite s i) s (exec i s) := by
  cases i with
  | cls => exact answersWithin_setFrame
  | ret => exact answersWithin_ret s
  | call nnn => exact answersWithin_call nnn s
  | jp | jpV0 => exact answersWithin_setPC
  | seImm | sneImm | seReg | sneReg => exact answersWithin_skipIf
  | ldImm | addImm | ldReg | orReg | andReg | xorReg | rnd | ldVxDt => exact answersWithin_setReg
  | addReg | subReg | shr | subnReg | shl => exact answersWithin_setResultAndFlag
  | ldI | addI => exact answersWithin_setIndex
  | ldF => exact answersWithin_withHexOperand fun _ => answersWithin_setIndex
  | skp | sknp => exact answersWithin_withHexOperand fun _ => answersWithin_skipIf
  | ldVxK x => exact answersWithin_ldVxK x s
  | ldDtVx => exact answersWithin_setDelay
  | ldStVx => exact answersWithin_setSound
  | drw => exact answersWithin_withData answersWithin_setFrame_setReg
  | ldB => exact answersWithin_withData (answersWithin_storeAtIndex rfl)
  | stRegs x => exact answersWithin_withData (answersWithin_storeAtIndex_bumpIndex (s.length_regsUpTo x))
  | ldRegs => exact answersWithin_withData answersWithin_loadRegsUpTo_bumpIndex

/-- Settles O35, by the shape of each instruction's execute phase. -/
theorem writersAreThoseListed : Obligations.WritersAreThoseListed :=
  writersAreThoseListed_iff.mpr exec_answersWithin_mayWrite

end Sys2Proof.Machine
end

section
/-! PROOFS. The unconditional jump (40_flow.md R101): its meaning is one write of PC, and a write of PC leaves every
other piece of state alone. -/

namespace Sys2Proof.Machine

/-- The frame of a write of PC. -/
theorem onlyChanges_setPC (s : State) (w : Word) : OnlyChanges [.pc] s (s.setPC w) := by
  intro p hp
  have hpc : p ≠ .pc := List.ne_of_not_mem_cons hp
  exact (Part.same_setPC hpc).mpr (Part.same_refl p s)

/-- R101: the jump always completes. -/
theorem exec_jp (nnn : BitVec 12) (s : State) : exec (.jp nnn) s = .next (s.setPC (wordOfNNN nnn)) := rfl

/-- Settles O12: 1NNN writes PC, with NNN zero-extended, and nothing else. -/
theorem jumpReplacesPC : Obligations.JumpReplacesPC := fun nnn s =>
  ⟨s.setPC (wordOfNNN nnn), exec_jp nnn s, wordOfNNN_toNat nnn, onlyChanges_setPC s _⟩

end Sys2Proof.Machine
end

section
/-! PROOFS. Loads and 8-bit arithmetic (41_alu.md R122 to R129).  Each instruction writes one register, or a result and
then the flag, and advances: one rule for PC and one frame for each of the two shapes serve them all. -/

namespace Sys2Proof.Machine

/-! ## The two shapes of an instruction on registers -/

/-- R23, after writes that leave PC as it was in `s`. -/
theorem pcMovesBy_two_advance {s t : State} (h : t.pc = s.pc) : PcMovesBy 2 s t.advance := by
  simp [PcMovesBy, addWord_toNat, h]

theorem reg_setReg_advance_same (s : State) (x : Reg) (b : Byte) : (s.setReg x b).advance.reg x = b := by simp

theorem onlyChanges_setReg_advance (s : State) (x : Reg) (b : Byte) :
    OnlyChanges [.reg x, .pc] s (s.setReg x b).advance := by
  intro p hp
  obtain ⟨hx, hpc⟩ : p ≠ .reg x ∧ p ≠ .pc := by simpa using hp
  exact (Part.same_advance hpc).mpr ((Part.same_setReg hx).mpr (p.same_refl s))

/-- R121: the flag is written second, so VF holds it for every X. -/
theorem regF_setResultAndFlag_advance (s : State) (x : Reg) (a b : Byte) :
    (s.setResultAndFlag x a b).advance.reg regF = b := by simp

/-- The result stays unless the flag is written over it. -/
theorem reg_setResultAndFlag_advance_same (s : State) {x : Reg} (a b : Byte) (hx : x ≠ regF) :
    (s.setResultAndFlag x a b).advance.reg x = a := by simp [hx]

theorem onlyChanges_setResultAndFlag_advance (s : State) (x : Reg) (a b : Byte) :
    OnlyChanges [.reg x, .reg regF, .pc] s (s.setResultAndFlag x a b).advance := by
  intro p hp
  obtain ⟨hx, hf, hpc⟩ : p ≠ .reg x ∧ p ≠ .reg regF ∧ p ≠ .pc := by simpa using hp
  exact (Part.same_advance hpc).mpr ((Part.same_setResultAndFlag hx hf).mpr (p.same_refl s))

/-! ## The carry -/

theorem addCarry_iff (a b : Byte) : addCarry a b = true ↔ 255 < a.toNat + b.toNat := by simp [addCarry]

/-- R129: the carry as VF holds it. -/
theorem flagByte_addCarry_toNat (a b : Byte) :
    (flagByte (addCarry a b)).toNat = if 255 < a.toNat + b.toNat then 1 else 0 := by
  simp only [flagByte_toNat, addCarry_iff]

/-! ## The statements -/

/-- Settles O8: the result and the carry are what 8XY4 writes, in this order. -/
theorem addWithCarryOut : Obligations.AddWithCarryOut := by
  intro x y s
  refine ⟨(s.setResultAndFlag x (addByte (s.reg x) (s.reg y)) (flagByte (addCarry (s.reg x) (s.reg y)))).advance,
    rfl, fun hx => ?sum, ?carry, pcMovesBy_two_advance rfl, onlyChanges_setResultAndFlag_advance s x _ _⟩
  case sum => rw [reg_setResultAndFlag_advance_same s _ _ hx, addByte_toNat]
  case carry => rw [regF_setResultAndFlag_advance, flagByte_addCarry_toNat]

/-- Settles O6: both write one register, with NN and with the sum. -/
theorem immediateLoadAndAdd : Obligations.ImmediateLoadAndAdd := by
  intro x nn s
  refine ⟨⟨(s.setReg x nn).advance, rfl, reg_setReg_advance_same s x nn, pcMovesBy_two_advance rfl,
      onlyChanges_setReg_advance s x _⟩,
    ⟨(s.setReg x (addByte (s.reg x) nn)).advance, rfl, ?sum, pcMovesBy_two_advance rfl,
      onlyChanges_setReg_advance s x _⟩⟩
  case sum => rw [reg_setReg_advance_same, addByte_toNat]

/-- Settles O7: all four write one register; a bit of a bitwise operation is that operation on the bits. -/
theorem copyAndLogic : Obligations.CopyAndLogic := by
  intro x y s
  refine ⟨⟨(s.setReg x (s.reg y)).advance, rfl, reg_setReg_advance_same s x _, pcMovesBy_two_advance rfl,
      onlyChanges_setReg_advance s x _⟩,
    ⟨(s.setReg x (s.reg x ||| s.reg y)).advance, rfl, fun b _ => ?or, pcMovesBy_two_advance rfl,
      onlyChanges_setReg_advance s x _⟩,
    ⟨(s.setReg x (s.reg x &&& s.reg y)).advance, rfl, fun b _ => ?and, pcMovesBy_two_advance rfl,
      onlyChanges_setReg_advance s x _⟩,
    ⟨(s.setReg x (s.reg x ^^^ s.reg y)).advance, rfl, fun b _ => ?xor, pcMovesBy_two_advance rfl,
      onlyChanges_setReg_advance s x _⟩⟩
  case or => rw [reg_setReg_advance_same, BitVec.getLsbD_or]
  case and => rw [reg_setReg_advance_same, BitVec.getLsbD_and]
  case xor => rw [reg_setReg_advance_same, BitVec.getLsbD_xor]

end Sys2Proof.Machine
end

section
/-! PROOFS. The index register (42_index_memory.md): an instruction that loads I writes I and advances, and one frame
serves them all; ANNN (R141) is the one whose value is its operand. -/

namespace Sys2Proof.Machine

/-- The frame of an instruction that loads I. -/
theorem onlyChanges_setIndex_advance (s : State) (w : Word) : OnlyChanges [.i, .pc] s (s.setIndex w).advance := by
  intro p hp
  obtain ⟨hi, hpc⟩ : p ≠ .i ∧ p ≠ .pc := by simpa using hp
  exact (Part.same_advance hpc).mpr ((Part.same_setIndex hi).mpr (p.same_refl s))

/-- R141: the load always completes. -/
theorem exec_ldI (nnn : BitVec 12) (s : State) :
    exec (.ldI nnn) s = .next (s.setIndex (wordOfNNN nnn)).advance := rfl

/-- Settles O18: ANNN writes I, with NNN zero-extended, and advances. -/
theorem loadIndex : Obligations.LoadIndex := fun nnn s =>
  ⟨(s.setIndex (wordOfNNN nnn)).advance, exec_ldI nnn s, wordOfNNN_toNat nnn, pcMovesBy_two_advance rfl,
    onlyChanges_setIndex_advance s _⟩

end Sys2Proof.Machine
end

section
/-! PROOFS. The display: clearing the frame buffer and the delta encoder (43_display.md R163, R166).  The frame of a
frame-buffer write is the 2048 cells; a delta is the differing indices of the frame, each paired with its new value. -/

namespace Sys2Proof.Machine

/-! ## Clearing the frame buffer -/

/-- A cell number from 2048 on names no cell of any frame, so a write of the frame leaves it as it was too. -/
theorem Part.same_setFrame_of_notMem_allCells {p : Part} {s t : State} {fb : FrameBuf} (h : p ∉ allCells) :
    p.same s (t.setFrame fb) ↔ p.same s t := by
  cases p with
  | cell c =>
    have hc : 2048 ≤ c := Nat.le_of_not_lt (mt (mem_allCells c).mpr h)
    simp [Part.same, hc]
  | _ => exact Part.same_setFrame rfl

/-- The frame of an instruction that writes the frame buffer only. -/
theorem onlyChanges_setFrame_advance (s : State) (fb : FrameBuf) :
    OnlyChanges (.pc :: allCells) s (s.setFrame fb).advance := by
  intro p hp
  obtain ⟨hpc, hcells⟩ : p ≠ .pc ∧ p ∉ allCells := by simpa using hp
  exact (Part.same_advance hpc).mpr ((Part.same_setFrame_of_notMem_allCells hcells).mpr (p.same_refl s))

/-- R163: clearing always completes. -/
theorem exec_cls (s : State) : exec .cls s = .next (s.setFrame FrameBuf.clear).advance := rfl

/-- Settles O25: 00E0 writes the clear frame and advances. -/
theorem clearFrameBuffer : Obligations.ClearFrameBuffer := fun s =>
  ⟨(s.setFrame FrameBuf.clear).advance, exec_cls s, fun c _ => FrameBuf.cell_clear c, pcMovesBy_two_advance rfl,
    onlyChanges_setFrame_advance s _⟩

/-! ## The delta -/

/-- R166: the delta in two passes, first the indices at which the frames differ, then the new values. -/
theorem delta_eq_map_filter (prev cur : FrameBuf) :
    delta prev cur =
      ((List.range 2048).filter fun i => prev.cell i ≠ cur.cell i).map fun i => (i, cur.cell i) := by
  rw [← List.filterMap_eq_map, List.filterMap_filter]
  refine List.filterMap_congr fun i _ => ?_
  by_cases h : prev.cell i = cur.cell i <;> simp [h]

theorem mem_delta (prev cur : FrameBuf) (i : Nat) (v : Bool) :
    (i, v) ∈ delta prev cur ↔ i < 2048 ∧ prev.cell i ≠ cur.cell i ∧ v = cur.cell i := by
  rw [delta_eq_map_filter, List.mem_map]
  constructor
  · rintro ⟨j, hj, hpair⟩
    obtain ⟨rfl, rfl⟩ := Prod.mk.inj hpair
    simpa using hj
  · rintro ⟨hi, hne, rfl⟩
    exact ⟨i, by simpa using ⟨hi, hne⟩, rfl⟩

/-- The indices are some of those of the range, whose order the two passes keep. -/
theorem pairwise_delta (prev cur : FrameBuf) : (delta prev cur).Pairwise fun a b => a.1 < b.1 := by
  rw [delta_eq_map_filter, List.pairwise_map]
  exact List.pairwise_lt_range.filter _

/-- Settles O29, by the two-pass form of the delta. -/
theorem deltaListsDifferences : Obligations.DeltaListsDifferences := fun prev cur =>
  ⟨mem_delta prev cur, pairwise_delta prev cur⟩

end Sys2Proof.Machine
end

section
/-! PROOFS. The key skips (44_keypad_timers.md R182, R183): a skip moves PC by 4 or by 2 and writes nothing else; EX9E
and EXA1 are skips on opposite conditions, once the register names a key. -/

namespace Sys2Proof.Machine

/-! ## A skip -/

/-- R100: what a skip adds to PC. -/
theorem pcMovesBy_skipIf (s : State) (c : Bool) : PcMovesBy (if c then 4 else 2) s (s.skipIf c) :=
  addWord_toNat s.pc _

/-- R100, for a skip on the opposite condition. -/
theorem pcMovesBy_skipIf_not (s : State) (c : Bool) : PcMovesBy (if c then 2 else 4) s (s.skipIf (!c)) := by
  cases c with
  | false => exact pcMovesBy_skipIf s true
  | true => exact pcMovesBy_skipIf s false

/-- The frame of a skip. -/
theorem onlyChanges_skipIf (s : State) (c : Bool) : OnlyChanges [.pc] s (s.skipIf c) := onlyChanges_setPC s _

/-! ## The two instructions, when the register names a key -/

/-- R182. -/
theorem exec_skp_of_hexOperand {x : Reg} {k : Fin 16} {s : State}
    (hk : hexOperand s.params.keyIndex (s.reg x) = some k) :
    exec (.skp x) s = .next (s.skipIf (s.keyDown k.val)) :=
  withHexOperand_some hk _

/-- R183. -/
theorem exec_sknp_of_hexOperand {x : Reg} {k : Fin 16} {s : State}
    (hk : hexOperand s.params.keyIndex (s.reg x) = some k) :
    exec (.sknp x) s = .next (s.skipIf (!s.keyDown k.val)) :=
  withHexOperand_some hk _

/-- Settles O31: EX9E skips on the key that VX names, EXA1 on its negation. -/
theorem keySkips : Obligations.KeySkips := fun _ k s hk =>
  ⟨⟨s.skipIf (s.keyDown k.val), exec_skp_of_hexOperand hk, pcMovesBy_skipIf s (s.keyDown k.val),
      onlyChanges_skipIf s _⟩,
    ⟨s.skipIf (!s.keyDown k.val), exec_sknp_of_hexOperand hk, pcMovesBy_skipIf_not s (s.keyDown k.val),
      onlyChanges_skipIf s _⟩⟩

end Sys2Proof.Machine
end

section
/-! SUPPORT. Frames put one after the other, and the frame of what a tick does before its execute phase. -/

namespace Sys2Proof.Machine

theorem onlyChanges_refl (parts : List Part) (s : State) : OnlyChanges parts s s := fun p _ => p.same_refl s

/-- Two changes within one list are together within it. -/
theorem OnlyChanges.trans {parts : List Part} {s t u : State} (hst : OnlyChanges parts s t)
    (htu : OnlyChanges parts t u) : OnlyChanges parts s u :=
  fun p hp => (Part.same_iff_of_same (htu p hp)).mpr (hst p hp)

/-- A longer list is a weaker frame. -/
theorem OnlyChanges.mono {parts parts' : List Part} {s t : State} (h : OnlyChanges parts s t)
    (hsub : parts ⊆ parts') : OnlyChanges parts' s t :=
  fun p hp => h p fun hmem => hp (hsub hmem)

/-! ## One frame per operation of the loop -/

theorem onlyChanges_takeEvent (s : State) (rest : List HostEvent) : OnlyChanges [.host] s (s.takeEvent rest) := by
  intro p hp
  cases p with
  | host => simp at hp
  | _ => rfl

theorem onlyChanges_answer (s : State) (c : CmdStatus) : OnlyChanges [.status] s (s.answer c) := by
  intro p hp
  cases p with
  | status => simp at hp
  | _ => rfl

theorem onlyChanges_beginTick (s : State) (inp : TickInputs) :
    OnlyChanges [.inputs, .status] s (s.beginTick inp) := by
  intro p hp
  cases p with
  | inputs | status => simp at hp
  | _ => rfl

/-- R210: the fetch writes IR only; PC is not changed by it. -/
theorem onlyChanges_fetched (s : State) : OnlyChanges [.ir] s s.fetched := by
  intro p hp
  cases p with
  | ir => simp at hp
  | _ => rfl

/-- A tick that has begun differs from the state before it in its event, its inputs and its status only. -/
theorem onlyChanges_begun (s : State) (rest : List HostEvent) (inp : TickInputs) :
    OnlyChanges [.host, .inputs, .status] s ((s.takeEvent rest).beginTick inp) :=
  ((onlyChanges_takeEvent s rest).mono (by simp)).trans
    ((onlyChanges_beginTick (s.takeEvent rest) inp).mono (by simp))

/-- An event that is taken and answered changes nothing of the CORE. -/
theorem onlyChanges_takeEvent_answer (s : State) (rest : List HostEvent) (c : CmdStatus) :
    OnlyChanges [.host, .status] s ((s.takeEvent rest).answer c) :=
  ((onlyChanges_takeEvent s rest).mono (by simp)).trans
    ((onlyChanges_answer (s.takeEvent rest) c).mono (by simp))

end Sys2Proof.Machine
end

section
/-! PROOFS. Fetch and decode (46_execution_loop.md R210, R211): the two faults before the execute phase, and what IR
holds at the end of a tick.  No instruction writes IR (R28), and no phase after the execute phase does. -/

namespace Sys2Proof.Machine

/-! ## IR after the fetch -/

/-- R28, in the list of writers. -/
theorem mayWrite_ir (s : State) (i : Instr) : mayWrite s i .ir = false := by
  cases i <;> simp [mayWrite, Part.isCell, Part.isStored, Part.isSlotAt, Part.isRegThrough, Part.isFaultEntry]

@[simp] theorem State.finishTick_ir (s : State) : s.finishTick.ir = s.ir := by
  unfold State.finishTick
  split <;> simp

@[simp] theorem State.afterExecute_ir (s : State) : s.afterExecute.ir = s.ir := by
  unfold State.afterExecute
  split
  next => rfl
  next => exact s.finishTick_ir

/-- R210: once the fetch is done, IR holds the word until the tick ends, whatever the word is. -/
theorem exists_step_ir_eq_fetchWord {s : State} {inp : TickInputs} {rest : List HostEvent}
    (hl : s.lstate = .running) (hh : s.host = .tick inp :: rest) (hpc : s.pc.toNat ≤ 4094) :
    ∃ t, step s = .next t ∧ t.ir = s.fetchWord := by
  cases hd : decode s.fetchWord with
  | error e => exact ⟨_, step_tick_illegal hl hh hpc hd, rfl⟩
  | ok i =>
    obtain ⟨u, hexec, hsame⟩ := exec_answersWithin_mayWrite i ((s.takeEvent rest).beginTick inp).fetched
    have hir : u.ir = s.fetchWord := hsame .ir (mayWrite_ir _ i)
    refine ⟨u.afterExecute, ?_, u.afterExecute_ir.trans hir⟩
    rw [step_tick_ok hl hh hpc hd, hexec]
    rfl

/-! ## The statements -/

/-- Settles O40: outside memory the tick is a fault entry; inside it the fetch writes IR, which no later phase does. -/
theorem fetchReadsBigEndianOrFaults : Obligations.FetchReadsBigEndianOrFaults := by
  intro s inp rest hl hh
  refine ⟨fun hpc => ?outside, fun hpc => ?inside⟩
  case outside =>
    exact ⟨_, step_tick_outside hl hh hpc, rfl, rfl,
      ((onlyChanges_begun s rest inp).mono (by simp)).trans ((onlyChanges_takeFault _ _).mono (by simp))⟩
  case inside =>
    exact ⟨wordOfBytes_toNat _ _, onlyChanges_fetched s, exists_step_ir_eq_fetchWord hl hh hpc⟩

/-- Settles O41: the tick is the fetch and then a fault entry. -/
theorem illegalWordEndsTheTick : Obligations.IllegalWordEndsTheTick := by
  intro s inp rest e hl hh hpc hd
  refine ⟨_, step_tick_illegal hl hh hpc hd, rfl, rfl, rfl, ?frame⟩
  case frame =>
    exact ((onlyChanges_begun s rest inp).mono (by simp)).trans
      (((onlyChanges_fetched _).mono (by simp)).trans ((onlyChanges_takeFault _ _).mono (by simp)))

end Sys2Proof.Machine
end

section
/-! PROOFS. The ended loop (46_execution_loop.md R219, R220, 60_exceptions.md R242): every event is refused, so a step
changes the pending events and the status only, and stays in the loop state it started from. -/

namespace Sys2Proof.Machine

/-! ## Commands out of place (R220) -/

theorem State.cmdInitialize_refused {s : State} (h : s.acceptsSetup = false) :
    s.cmdInitialize = s.answer .refused := by
  simp [State.cmdInitialize, h]

theorem State.cmdLoad_refused {s : State} (bytes : List Byte) (h : s.acceptsSetup = false) :
    s.cmdLoad bytes = s.answer .refused := by
  simp [State.cmdLoad, h]

theorem State.cmdRun_refused {s : State} (bound : Bool) (h : s.lstate ≠ .ready) :
    s.cmdRun bound = s.answer .refused := by
  simp [State.cmdRun, h]

/-! ## The loop has ended -/

/-- The premise of `StoppedAndFailedAreFinal`: the loop is `Stopped` or `Failed`. -/
def State.LoopEnded (s : State) : Prop := s.lstate = .stopped ∨ s.lstate = .failed

theorem State.LoopEnded.ne_running {s : State} (h : s.LoopEnded) : s.lstate ≠ .running := by
  obtain h | h := h <;> simp [h]

theorem State.LoopEnded.ne_ready {s : State} (h : s.LoopEnded) : s.lstate ≠ .ready := by
  obtain h | h := h <;> simp [h]

theorem State.LoopEnded.acceptsSetup {s : State} (h : s.LoopEnded) : s.acceptsSetup = false := by
  obtain h | h := h <;> simp [State.acceptsSetup, h]

/-- A change that leaves `LSTATE` alone leaves an ended loop ended. -/
theorem State.LoopEnded.of_onlyChanges {s t : State} {parts : List Part} (h : s.LoopEnded)
    (hst : OnlyChanges parts s t) (hparts : .lstate ∉ parts) : t.LoopEnded := by
  have hl : t.lstate = s.lstate := hst .lstate hparts
  rwa [State.LoopEnded, hl]

/-- R219, R220: after the end an event is taken and refused, and with none pending nothing happens. -/
theorem onlyChanges_step_of_loopEnded {s t : State} (hs : s.LoopEnded) (h : step s = .next t) :
    OnlyChanges [.host, .status] s t := by
  cases step_cases h with
  | idle => exact onlyChanges_refl _ s
  | initializeCmd rest =>
    rw [State.cmdInitialize_refused (s := s.takeEvent rest) hs.acceptsSetup]
    exact onlyChanges_takeEvent_answer s rest .refused
  | loadCmd bytes rest =>
    rw [State.cmdLoad_refused (s := s.takeEvent rest) bytes hs.acceptsSetup]
    exact onlyChanges_takeEvent_answer s rest .refused
  | runCmd bound rest =>
    rw [State.cmdRun_refused (s := s.takeEvent rest) bound hs.ne_ready]
    exact onlyChanges_takeEvent_answer s rest .refused
  | tickRefused inp rest => exact onlyChanges_takeEvent_answer s rest .refused
  | fetchFault _ _ _ hl | decodeFault _ _ _ _ hl | executed _ _ _ _ _ hl => exact absurd hl hs.ne_running

/-! ## Any number of steps -/

/-- A run that answers a next state begins with a step that answers one. -/
theorem run_succ_next {M : Host.Core} {k : Nat} {s t : M.State} (h : M.run (k + 1) s = .next t) :
    ∃ u, M.step s = .next u ∧ M.run k u = .next t := by
  unfold Host.Core.run at h
  split at h
  next u hstep => exact ⟨u, hstep, h⟩
  next => cases h
  next => cases h

/-- Settles O52, by induction on the number of steps: each is within the frame and keeps the loop ended. -/
theorem stoppedAndFailedAreFinal : Obligations.StoppedAndFailedAreFinal := by
  intro k
  induction k with
  | zero =>
    intro s t _ hrun
    cases hrun
    exact onlyChanges_refl _ s
  | succ k ih =>
    intro s t hs hrun
    obtain ⟨u, hstep, hrest⟩ := run_succ_next hrun
    have hsu : OnlyChanges [.host, .status] s u := onlyChanges_step_of_loopEnded hs hstep
    exact hsu.trans (ih u t (State.LoopEnded.of_onlyChanges hs hsu (by simp)) hrest)

end Sys2Proof.Machine
end

section
/-! PROOFS. Precise faults (60_exceptions.md R240): an execute phase either completes or enters a fault at the state it
started from, and of the later phases only presentation raises one; so any other fault of a tick is entered at the
begun tick, before the fetch or right after it. -/

namespace Sys2Proof.Machine

/-! ## The execute phase -/

/-- The two ends of an execute phase that starts from `s`: it completes, with `LSTATE` and `RESULT` as they were, or it
enters a fault of the loop and has written nothing. -/
inductive ExecuteCase (s : State) : State → Prop where
  | completed {t : State} (hlstate : t.lstate = s.lstate) (hresult : t.result = s.result) : ExecuteCase s t
  | faulted (f : FaultInfo) (hends : f.endsLoop = true) : ExecuteCase s (s.takeFault f)

section

variable {s t : State}

theorem executeCase_of_complete {u : State} (h : complete u = .next t) (hlstate : u.lstate = s.lstate)
    (hresult : u.result = s.result) : ExecuteCase s t := by
  cases h
  exact .completed hlstate hresult

/-- An instruction whose list of writers leaves out `LSTATE` and `RESULT` completes. -/
theorem executeCase_of_mayWrite_eq_false {i : Instr} (h : exec i s = .next t) (hlstate : mayWrite s i .lstate = false)
    (hresult : mayWrite s i .result = false) : ExecuteCase s t := by
  obtain ⟨u, hexec, hsame⟩ := exec_answersWithin_mayWrite i s
  exact executeCase_of_complete (hexec.symm.trans h) (hsame .lstate hlstate) (hsame .result hresult)

/-- R57: an access of data at I ends as its instruction does, or in `MemoryBoundsError`. -/
theorem executeCase_of_withData {n : Nat} {r : StepResult} (h : withData s n r = .next t)
    (hinside : r = .next t → ExecuteCase s t) : ExecuteCase s t := by
  obtain ⟨hr, -⟩ | ⟨rfl, -, -⟩ := withData_next h
  · exact hinside hr
  · exact .faulted _ rfl

/-- R143, R181: an instruction that reads a key or digit number ends as it does with the number, or in
`OperandRangeError`. -/
theorem executeCase_of_withHexOperand {x : Reg} {r : Fin 16 → StepResult} (h : withHexOperand s x r = .next t)
    (hnamed : ∀ k, r k = .next t → ExecuteCase s t) : ExecuteCase s t := by
  obtain ⟨k, -, hr⟩ | ⟨-, -, rfl⟩ := withHexOperand_next h
  · exact hnamed k hr
  · exact .faulted _ rfl

theorem executeCase_of_call {nnn : BitVec 12} (h : execCall nnn s = .next t) : ExecuteCase s t := by
  unfold execCall at h
  split at h
  next u hpush =>
    obtain ⟨_, _, _, rfl⟩ := State.push_some hpush
    exact executeCase_of_complete h rfl rfl
  next =>
    cases h
    exact .faulted _ rfl

theorem executeCase_of_ret (h : execRet s = .next t) : ExecuteCase s t := by
  unfold execRet at h
  split at h
  next ret u hpop =>
    obtain ⟨_, _, _, _, rfl⟩ := State.pop_some hpop
    exact executeCase_of_complete h rfl rfl
  next =>
    cases h
    exact .faulted _ rfl

/-- R240: no instruction enters a fault after a write. -/
theorem exec_cases {i : Instr} (h : exec i s = .next t) : ExecuteCase s t := by
  cases i with
  | ret => exact executeCase_of_ret h
  | call => exact executeCase_of_call h
  | skp | sknp | ldF => exact executeCase_of_withHexOperand h fun _ hr => executeCase_of_complete hr rfl rfl
  | drw | ldB | stRegs | ldRegs =>
    exact executeCase_of_withData h fun hr => executeCase_of_complete hr (by simp) (by simp)
  | _ => exact executeCase_of_mayWrite_eq_false h rfl rfl

/-! ## The later phases and the commands -/

theorem State.afterExecute_of_ne_failed (h : s.lstate ≠ .failed) : s.afterExecute = s.finishTick := if_neg h

/-- R214: a fault of phases 4 to 7 is the renderer's, unless `RESULT` held it before them. -/
theorem State.eq_rendererError_or_result_of_finishTick {f : FaultInfo} (h : s.finishTick.result = .fault f) :
    f = .rendererError ∨ s.result = .fault f := by
  unfold State.finishTick at h
  split at h
  next =>
    unfold State.cancelCheck at h
    split at h
    next => cases h
    next => exact .inr (by simpa using h)
  next =>
    cases h
    exact .inl rfl

@[simp] theorem State.cmdInitialize_result (s : State) : s.cmdInitialize.result = s.result := by
  unfold State.cmdInitialize
  split <;> rfl

@[simp] theorem State.cmdLoad_result (s : State) (bytes : List Byte) : (s.cmdLoad bytes).result = s.result := by
  unfold State.cmdLoad
  split
  next => split <;> rfl
  next => rfl

@[simp] theorem State.cmdRun_result (s : State) (bound : Bool) : (s.cmdRun bound).result = s.result := by
  unfold State.cmdRun
  split
  next => split <;> rfl
  next => rfl

/-! ## The tick -/

/-- R34: a running loop has no result yet. -/
theorem State.Inv.result_eq_none (hinv : s.Inv) (hl : s.lstate = .running) : s.result = .none := by
  have houtcome : resultAgrees .running s.result = true := hl ▸ hinv.outcome
  cases hr : s.result with
  | none => rfl
  | cancelled | fault => simp [hr, resultAgrees] at houtcome

/-- A tick whose fault is not the renderer's is the begun tick, fetched when PC is inside memory, and then a fault
entry. -/
theorem step_fault_cases {f : FaultInfo} (hl : s.lstate = .running) (hnone : s.result = .none)
    (hstep : step s = .next t) (hfault : t.result = .fault f) (hf : f ≠ .rendererError) :
    ∃ inp rest,
      (4094 < s.pc.toNat ∧ t = ((s.takeEvent rest).beginTick inp).takeFault f) ∨
      (s.pc.toNat ≤ 4094 ∧ t = ((s.takeEvent rest).beginTick inp).fetched.takeFault f) := by
  cases step_cases hstep with
  | idle | initializeCmd | loadCmd | runCmd | tickRefused => simp [hnone] at hfault
  | fetchFault inp rest _ _ hpc =>
    cases hfault
    exact ⟨inp, rest, .inl ⟨hpc, rfl⟩⟩
  | decodeFault inp rest _ _ _ hpc =>
    cases hfault
    exact ⟨inp, rest, .inr ⟨hpc, rfl⟩⟩
  | executed inp rest _ u _ _ hpc _ hexec =>
    cases exec_cases hexec with
    | completed hlstate hresult =>
      have hgoesOn : u.lstate ≠ .failed := by simp [hlstate, hl]
      rw [State.afterExecute_of_ne_failed hgoesOn] at hfault
      obtain rfl | hu := State.eq_rendererError_or_result_of_finishTick hfault
      · exact absurd rfl hf
      · simp [hresult, hnone] at hu
    | faulted g =>
      cases hfault
      exact ⟨inp, rest, .inr ⟨hpc, rfl⟩⟩

end

/-- Settles O42: such a tick is its beginning, the fetch when PC is inside memory, and a fault entry; together they
write the listed pieces only. -/
theorem instructionFaultsArePrecise : Obligations.InstructionFaultsArePrecise := by
  intro s t f hinv hl hstep hfault hf
  obtain ⟨inp, rest, ⟨hpc, rfl⟩ | ⟨hpc, rfl⟩⟩ :=
    step_fault_cases hl (hinv.result_eq_none hl) hstep hfault hf
  · refine ⟨rfl, fun hin => absurd hin (Nat.not_le_of_gt hpc), fun _ => rfl, ?_⟩
    exact ((onlyChanges_begun s rest inp).mono (by simp)).trans ((onlyChanges_takeFault _ f).mono (by simp))
  · refine ⟨rfl, fun _ => rfl, fun hout => absurd hpc (Nat.not_le_of_gt hout), ?_⟩
    exact ((onlyChanges_begun s rest inp).mono (by simp)).trans
      (((onlyChanges_fetched _).mono (by simp)).trans ((onlyChanges_takeFault _ f).mono (by simp)))

end Sys2Proof.Machine
end

section
/-! PROOFS. Boot (70_reset_and_hazards.md R265): power-on is the state before the first tick, each command keeps it, and
so does a list of commands.  The memory argument is that the font at 0x50 and the image from 0x200 do not meet. -/

namespace Sys2Proof.Machine

/-! ## Commands

One equation for each answer of a command, beside the refusals above; then the loop state after it (R205) and the events
still pending, whatever the state before it. -/

section

variable {s : State}

theorem State.acceptsSetup_iff : s.acceptsSetup = true ↔ s.lstate = .uninitialized ∨ s.lstate = .ready := by
  simp [State.acceptsSetup]

theorem State.cmdInitialize_accepted (h : s.acceptsSetup = true) :
    s.cmdInitialize = s.initializeWrites.answer .accepted := by
  simp [State.cmdInitialize, h]

theorem State.cmdLoad_accepted {bytes : List Byte} (h : s.acceptsSetup = true) (hfits : imageFits bytes = true) :
    s.cmdLoad bytes = (s.loadWrites bytes).answer .accepted := by
  simp [State.cmdLoad, h, hfits]

theorem State.cmdLoad_tooLong {bytes : List Byte} (h : s.acceptsSetup = true) (hfits : imageFits bytes = false) :
    s.cmdLoad bytes = s.answer (.failedWith (.memoryBoundsError (BitVec.ofNat 16 imageBase))) := by
  simp [State.cmdLoad, h, hfits]

theorem State.cmdRun_accepted (h : s.lstate = .ready) :
    s.cmdRun true = { s with lstate := .running, status := .accepted } := by
  simp [State.cmdRun, h]

theorem State.cmdRun_unbound (h : s.lstate = .ready) :
    s.cmdRun false = s.answer (.failedWith .configurationError) := by
  simp [State.cmdRun, h]

end

@[simp] theorem State.cmdInitialize_fields (s : State) :
    s.cmdInitialize.lstate = loopAfterCommand s.lstate .initializeCmd ∧ s.cmdInitialize.host = s.host := by
  cases hsetup : s.acceptsSetup with
  | true =>
    rw [State.cmdInitialize_accepted hsetup]
    obtain hl | hl := State.acceptsSetup_iff.mp hsetup <;> simp [loopAfterCommand, hl]
  | false =>
    have hl : s.lstate ≠ .uninitialized := fun hl => by simp [State.acceptsSetup, hl] at hsetup
    simp [State.cmdInitialize_refused hsetup, loopAfterCommand, hl]

@[simp] theorem State.cmdLoad_fields (s : State) (bytes : List Byte) :
    (s.cmdLoad bytes).lstate = loopAfterCommand s.lstate (.loadCmd bytes) ∧ (s.cmdLoad bytes).host = s.host := by
  cases hsetup : s.acceptsSetup with
  | true =>
    cases hfits : imageFits bytes with
    | true => simp [State.cmdLoad_accepted hsetup hfits, loopAfterCommand]
    | false => simp [State.cmdLoad_tooLong hsetup hfits, loopAfterCommand]
  | false => simp [State.cmdLoad_refused bytes hsetup, loopAfterCommand]

@[simp] theorem State.cmdRun_fields (s : State) (bound : Bool) :
    (s.cmdRun bound).lstate = loopAfterCommand s.lstate (.runCmd bound) ∧ (s.cmdRun bound).host = s.host := by
  by_cases hl : s.lstate = .ready
  · cases bound with
    | true => simp [State.cmdRun_accepted hl, loopAfterCommand, hl]
    | false => simp [State.cmdRun_unbound hl, loopAfterCommand]
  · simp [State.cmdRun_refused bound hl, loopAfterCommand, hl]

/-- The inversion of a step that takes a command: it is that command, at the state with the event taken. -/
theorem step_command_cases {s t : State} {e : HostEvent} {rest : List HostEvent} (hhost : s.host = e :: rest)
    (he : e.isCommand = true) (hstep : step s = .next t) :
    (e = .initializeCmd ∧ t = (s.takeEvent rest).cmdInitialize) ∨
      (∃ bytes, e = .loadCmd bytes ∧ t = (s.takeEvent rest).cmdLoad bytes) ∨
      (∃ bound, e = .runCmd bound ∧ t = (s.takeEvent rest).cmdRun bound) := by
  rw [step, stepWith, hhost] at hstep
  cases e with
  | initializeCmd =>
    cases hstep
    exact .inl ⟨rfl, rfl⟩
  | loadCmd bytes =>
    cases hstep
    exact .inr (.inl ⟨bytes, rfl, rfl⟩)
  | runCmd bound =>
    cases hstep
    exact .inr (.inr ⟨bound, rfl, rfl⟩)
  | tick | concurrentLaunch => cases he

theorem step_command_host {s t : State} {e : HostEvent} {rest : List HostEvent} (hhost : s.host = e :: rest)
    (he : e.isCommand = true) (hstep : step s = .next t) : t.host = rest := by
  obtain ⟨-, rfl⟩ | ⟨_, -, rfl⟩ | ⟨_, -, rfl⟩ := step_command_cases hhost he hstep <;> simp

/-! ## Each command keeps the state before the first tick -/

section

variable {p : Params} {image : List Byte} {s : State}

theorem State.BootState.takeEvent (h : s.BootState p image) (rest : List HostEvent) :
    (s.takeEvent rest).BootState p image :=
  { h with }

theorem State.BootState.answer (h : s.BootState p image) (c : CmdStatus) : (s.answer c).BootState p image :=
  { h with }

/-- R206: the font lies below the image, so writing it leaves the image and every other low byte. -/
theorem State.BootState.initializeWrites (h : s.BootState p image) : s.initializeWrites.BootState p image := by
  have hlen : s.params.font.toList.length = 80 := s.params.font.length_toList
  have hfits : fontBase + s.params.font.toList.length ≤ memBytes := by simp [hlen, fontBase, memBytes]
  have houtside : ∀ a, a < 0x50 ∨ 0x50 + 80 ≤ a →
      Memory.read s.initializeWrites.mem a = Memory.read s.mem a := fun a ha =>
    Memory.read_not_stored h.memWf hfits (by rwa [hlen, fontBase])
  exact
    { h with
      memWf := Memory.wf_writeBytes h.memWf hfits
      loop := .inr (.inl rfl)
      pc := rfl
      i := rfl
      ir := rfl
      font := fun k => by
        have hread := Memory.read_stored h.memWf hfits k.val (by simp)
        simpa [h.params, fontBase] using hread
      low := fun a hlt ha => (houtside a ha).trans (h.low a hlt ha)
      image := fun k => (houtside _ (by omega)).trans (h.image k) }

/-- R207: an image that fits is laid over the one before it, and no byte below 0x200 is touched. -/
theorem State.BootState.loadWrites (h : s.BootState p image) {bytes : List Byte} (hfits : imageFits bytes = true) :
    (s.loadWrites bytes).BootState p (overlay image bytes) := by
  have hle : imageBase + bytes.length ≤ memBytes := by simpa [imageFits] using hfits
  have hbelow : ∀ a, a < 0x200 → Memory.read (s.loadWrites bytes).mem a = Memory.read s.mem a := fun a ha =>
    Memory.read_not_stored h.memWf hle (.inl ha)
  exact
    { h with
      memWf := Memory.wf_writeBytes h.memWf hle
      font := fun k => (hbelow _ (by omega)).trans (h.font k)
      low := fun a hlt ha => (hbelow a hlt).trans (h.low a hlt ha)
      image := fun k => by
        rw [getD_overlay]
        split
        next hk =>
          have hread : Memory.read (s.loadWrites bytes).mem (0x200 + k) = bytes[k] :=
            Memory.read_stored h.memWf hle k hk
          exact hread.trans (List.getD_eq_getElem bytes 0 hk).symm
        next hk =>
          have hread : Memory.read (s.loadWrites bytes).mem (0x200 + k) = Memory.read s.mem (0x200 + k) :=
            Memory.read_not_stored h.memWf hle (.inr (by simp only [imageBase]; omega))
          exact hread.trans (h.image k) }

theorem State.BootState.cmdInitialize (h : s.BootState p image) : s.cmdInitialize.BootState p image := by
  cases hsetup : s.acceptsSetup with
  | true =>
    rw [State.cmdInitialize_accepted hsetup]
    exact h.initializeWrites.answer .accepted
  | false =>
    rw [State.cmdInitialize_refused hsetup]
    exact h.answer .refused

/-- The condition under which the image changes is the one under which `Load` writes. -/
theorem imageAfterCommand_loadCmd (s : State) (image bytes : List Byte) :
    imageAfterCommand s.lstate image (.loadCmd bytes) =
      if s.acceptsSetup && imageFits bytes then overlay image bytes else image := rfl

theorem State.BootState.cmdLoad (h : s.BootState p image) (bytes : List Byte) :
    (s.cmdLoad bytes).BootState p (imageAfterCommand s.lstate image (.loadCmd bytes)) := by
  rw [imageAfterCommand_loadCmd]
  cases hsetup : s.acceptsSetup with
  | true =>
    cases hfits : imageFits bytes with
    | true =>
      rw [State.cmdLoad_accepted hsetup hfits]
      exact (h.loadWrites hfits).answer .accepted
    | false =>
      rw [State.cmdLoad_tooLong hsetup hfits]
      exact h.answer _
  | false =>
    rw [State.cmdLoad_refused bytes hsetup]
    exact h.answer .refused

/-- R209: `Run` is accepted in `Ready` only, where PC and the font are already those of a running loop. -/
theorem State.BootState.cmdRun (h : s.BootState p image) (bound : Bool) : (s.cmdRun bound).BootState p image := by
  by_cases hl : s.lstate = .ready
  · cases bound with
    | true =>
      rw [State.cmdRun_accepted hl]
      exact
        { h with
          loop := .inr (.inr rfl)
          pc := by simpa [hl] using h.pc
          font := fun k => by simpa [hl] using h.font k }
    | false =>
      rw [State.cmdRun_unbound hl]
      exact h.answer _
  · rw [State.cmdRun_refused bound hl]
    exact h.answer .refused

end

/-- Settles O60: the step is one of the three commands, and each keeps the boot state. -/
theorem commandsKeepTheBootState : Obligations.CommandsKeepTheBootState := by
  intro p image s t e rest hboot hhost he hstep
  have htaken := hboot.takeEvent rest
  obtain ⟨rfl, rfl⟩ | ⟨bytes, rfl, rfl⟩ | ⟨bound, rfl, rfl⟩ := step_command_cases hhost he hstep
  · exact ⟨htaken.cmdInitialize, by simp⟩
  · exact ⟨htaken.cmdLoad bytes, by simp⟩
  · exact ⟨htaken.cmdRun bound, by simp⟩

/-! ## From power-on to the first tick -/

/-- Settles O59: registers, stack and frame buffer are replicated zeros, the rest is 0 by definition. -/
theorem powerOnIsTheBootState : Obligations.PowerOnIsTheBootState := by
  intro p
  exact
    { params := rfl, memWf := Memory.wf_powerOn p, loop := .inl rfl, result := rfl, pc := rfl, i := rfl, ir := rfl
      reg := fun r => by simp [State.reg, State.powerOn]
      sp := rfl
      stack := fun k => by simp [State.powerOn]
      cell := fun c _ => FrameBuf.cell_clear c
      keys := rfl, dt := rfl, st := rfl, tdiv := rfl
      font := fun _ => rfl
      low := fun _ _ _ => rfl
      image := fun _ => rfl }

/-- A list of commands keeps the boot state, and its `Load`s lay their images over the one before, in order. -/
theorem bootState_of_run_commands {p : Params} {image : List Byte} {cmds : List HostEvent} {s t : State}
    (hboot : s.BootState p image) (hhost : s.host = cmds) (hcmds : ∀ e ∈ cmds, e.isCommand = true)
    (hrun : core.run cmds.length s = .next t) : t.BootState p (imageAfterCommands s.lstate image cmds) := by
  induction cmds generalizing image s with
  | nil =>
    cases hrun
    exact hboot
  | cons e rest ih =>
    obtain ⟨he, hrest⟩ := List.forall_mem_cons.mp hcmds
    obtain ⟨u, hstep, hrun'⟩ := run_succ_next hrun
    obtain ⟨huboot, hul⟩ := commandsKeepTheBootState p image s u e rest hboot hhost he hstep
    have htboot := ih huboot (step_command_host hhost he hstep) hrest hrun'
    rwa [hul] at htboot

/-- Settles O54: the boot state after the commands, read where the loop is running. -/
theorem stateAtFirstTick : Obligations.StateAtFirstTick := by
  intro p cmds t hcmds hrun hl
  have h : t.BootState p (imageAfterCommands .uninitialized [] cmds) :=
    bootState_of_run_commands ((powerOnIsTheBootState p).takeEvent cmds) rfl hcmds hrun
  have hpc : t.pc = 0x200 := by simpa [hl] using h.pc
  have hfont : ∀ k : Fin 80, Memory.read t.mem (0x50 + k.val) = p.font[k] := fun k => by
    simpa [hl] using h.font k
  exact ⟨hpc, h.i, h.ir, h.reg, h.sp, h.stack, h.cell, h.keys, h.dt, h.st, h.tdiv, h.result, hfont, h.low, h.image⟩

end Sys2Proof.Machine
end

section
/-! PROOFS. Decoding (30_encoding.md sections 1 to 5): the encoder's formats and the fields of a word are inverse to
each other, the illegal words are those of R80, and the rows of the opcode map do not meet. -/

namespace Sys2Proof

/-! ## A word is put together again from its fields -/

section

variable {w : Word} {f : BitVec 4}

theorem encodeNNN_fields (hf : (fieldF w).toNat = f.toNat) : encodeNNN f (fieldNNN w) = w := by
  rw [fieldF_toNat] at hf
  refine BitVec.eq_of_toNat_eq ?_
  rw [encodeNNN_toNat, fieldNNN_toNat]
  omega

theorem encodeXNN_fields (hf : (fieldF w).toNat = f.toNat) {nn : Byte} (hnn : (fieldNN w).toNat = nn.toNat) :
    encodeXNN f (fieldX w) nn = w := by
  rw [fieldF_toNat] at hf
  rw [fieldNN_toNat] at hnn
  refine BitVec.eq_of_toNat_eq ?_
  rw [encodeXNN_toNat, fieldX_val]
  omega

theorem encodeXYN_fields (hf : (fieldF w).toNat = f.toNat) {n : BitVec 4} (hn : fieldN w = n.toNat) :
    encodeXYN f (fieldX w) (fieldY w) n = w := by
  rw [fieldF_toNat] at hf
  rw [fieldN_eq] at hn
  refine BitVec.eq_of_toNat_eq ?_
  rw [encodeXYN_toNat, fieldX_val, fieldY_val]
  omega

theorem fieldN_lt (w : Word) : fieldN w < 16 := by
  rw [fieldN_eq]
  omega

end

/-- Settles O1, format by format: every field that decode looks at is the one that encode put there. -/
theorem decodeInvertsEncode : Obligations.DecodeInvertsEncode := by
  intro i hwf
  cases i with
  | cls | ret => decide
  | jp | call | ldI | jpV0 => simp [encode, decode]
  | seImm | sneImm | ldImm | addImm | rnd => simp [encode, decode]
  | seReg | sneReg => simp [encode, decode, decodeFamily5, decodeFamily9]
  | ldReg | orReg | andReg | xorReg | addReg | subReg | shr | subnReg | shl =>
    simp [encode, decode, decodeFamily8]
  | drw x y n =>
    have hn : n < 16 := Nat.lt_succ_of_le (of_decide_eq_true hwf)
    simp [encode, decode, Nat.mod_eq_of_lt hn]
  | skp | sknp => simp [encode, encodeX, decode, decodeFamilyE]
  | ldVxDt | ldVxK | ldDtVx | ldStVx | addI | ldF | ldB | stRegs | ldRegs =>
    simp [encode, encodeX, decode, decodeFamilyF]

/-- The instruction `i` is one of the hardware, and `w` is its word: what `EncodeInvertsDecode` states of a decoded
instruction. -/
def Instr.IsOf (i : Instr) (w : Word) : Prop := i.wellFormed = true ∧ encode i = w

theorem isOf_of_decodeFamily0 {w : Word} {i : Instr} (h : decodeFamily0 w = .ok i) : i.IsOf w := by
  unfold decodeFamily0 at h
  split at h
  next hw => cases h; exact ⟨rfl, hw.symm⟩
  next =>
    split at h
    next hw => cases h; exact ⟨rfl, hw.symm⟩
    next => cases h

theorem isOf_of_decodeFamily5 {w : Word} {i : Instr} (hf : (fieldF w).toNat = 5) (h : decodeFamily5 w = .ok i) :
    i.IsOf w := by
  unfold decodeFamily5 at h
  split at h
  next hn => cases h; exact ⟨rfl, encodeXYN_fields hf hn⟩
  next => cases h

theorem isOf_of_decodeFamily9 {w : Word} {i : Instr} (hf : (fieldF w).toNat = 9) (h : decodeFamily9 w = .ok i) :
    i.IsOf w := by
  unfold decodeFamily9 at h
  split at h
  next hn => cases h; exact ⟨rfl, encodeXYN_fields hf hn⟩
  next => cases h

theorem isOf_of_decodeFamily8 {w : Word} {i : Instr} (hf : (fieldF w).toNat = 8) (h : decodeFamily8 w = .ok i) :
    i.IsOf w := by
  unfold decodeFamily8 at h
  split at h <;> cases h
  all_goals exact ⟨rfl, encodeXYN_fields hf ‹_›⟩

theorem isOf_of_decodeFamilyE {w : Word} {i : Instr} (hf : (fieldF w).toNat = 14) (h : decodeFamilyE w = .ok i) :
    i.IsOf w := by
  unfold decodeFamilyE at h
  split at h <;> cases h
  all_goals exact ⟨rfl, encodeXNN_fields hf ‹_›⟩

theorem isOf_of_decodeFamilyF {w : Word} {i : Instr} (hf : (fieldF w).toNat = 15) (h : decodeFamilyF w = .ok i) :
    i.IsOf w := by
  unfold decodeFamilyF at h
  split at h <;> cases h
  all_goals exact ⟨rfl, encodeXNN_fields hf ‹_›⟩

/-- Settles O2, family by family: in the families with one instruction its format holds every digit of the word.  The
arms of decode are counted from 1, so arm k is family k - 1, and the last is no family. -/
theorem encodeInvertsDecode : Obligations.EncodeInvertsDecode := by
  intro w i h
  change i.IsOf w
  unfold decode at h
  split at h
  case h_1 => exact isOf_of_decodeFamily0 h
  case h_6 hf => exact isOf_of_decodeFamily5 hf h
  case h_9 hf => exact isOf_of_decodeFamily8 hf h
  case h_10 hf => exact isOf_of_decodeFamily9 hf h
  case h_15 hf => exact isOf_of_decodeFamilyE hf h
  case h_16 hf => exact isOf_of_decodeFamilyF hf h
  case h_2 hf | h_3 hf | h_11 hf | h_12 hf =>
    cases h
    exact ⟨rfl, encodeNNN_fields hf⟩
  case h_4 hf | h_5 hf | h_7 hf | h_8 hf | h_13 hf =>
    cases h
    exact ⟨rfl, encodeXNN_fields hf rfl⟩
  case h_14 hf =>
    cases h
    refine ⟨decide_eq_true (Nat.le_of_lt_succ (fieldN_lt w)), encodeXYN_fields hf ?_⟩
    rw [BitVec.toNat_ofNat, Nat.mod_eq_of_lt (fieldN_lt w)]
  case h_17 => cases h

/-! ## The illegal words (R80) -/

theorem exists_decodeFamily0_error_iff (w : Word) :
    (∃ e, decodeFamily0 w = .error e) ↔ w.toNat ≠ 0x00E0 ∧ w.toNat ≠ 0x00EE := by
  simp only [decodeFamily0, ← BitVec.toNat_inj]
  split
  next h => simp [h]
  next h0 =>
    split
    next h => simp [h]
    next h1 => simpa using ⟨h0, h1⟩

theorem exists_decodeFamily5_error_iff (w : Word) :
    (∃ e, decodeFamily5 w = .error e) ↔ w.toNat % 16 ≠ 0 := by
  rw [decodeFamily5, fieldN_eq]
  split <;> simp_all

theorem exists_decodeFamily9_error_iff (w : Word) :
    (∃ e, decodeFamily9 w = .error e) ↔ w.toNat % 16 ≠ 0 := by
  rw [decodeFamily9, fieldN_eq]
  split <;> simp_all

theorem exists_decodeFamily8_error_iff (w : Word) :
    (∃ e, decodeFamily8 w = .error e) ↔ w.toNat % 16 ∈ [0x8, 0x9, 0xA, 0xB, 0xC, 0xD, 0xF] := by
  have hlt : w.toNat % 16 < 16 := Nat.mod_lt _ (by decide)
  rw [decodeFamily8, fieldN_eq]
  generalize w.toNat % 16 = n at hlt
  interval_cases n <;> simp

theorem exists_decodeFamilyE_error_iff (w : Word) :
    (∃ e, decodeFamilyE w = .error e) ↔ w.toNat % 256 ∉ [0x9E, 0xA1] := by
  rw [decodeFamilyE, fieldNN_toNat]
  split <;> simp_all

theorem exists_decodeFamilyF_error_iff (w : Word) :
    (∃ e, decodeFamilyF w = .error e) ↔
      w.toNat % 256 ∉ [0x07, 0x0A, 0x15, 0x18, 0x1E, 0x29, 0x33, 0x55, 0x65] := by
  rw [decodeFamilyF, fieldNN_toNat]
  split <;> simp_all

/-- Settles O4: each family rejects what its own decoder rejects, and families 1 to 4, 6, 7 and A to D nothing. -/
theorem illegalWordsByFamily : Obligations.IllegalWordsByFamily := by
  intro w
  have hlt : w.toNat / 4096 < 16 := by have := w.isLt; omega
  rw [decode, fieldF_toNat]
  generalize w.toNat / 4096 = f at hlt
  interval_cases f
  all_goals
    simp [exists_decodeFamily0_error_iff, exists_decodeFamily5_error_iff, exists_decodeFamily8_error_iff,
      exists_decodeFamily9_error_iff, exists_decodeFamilyE_error_iff, exists_decodeFamilyF_error_iff]

/-! ## The opcode map (R75, R78) -/

theorem exists_decode_ok_iff (w : Word) : (∃ i, decode w = .ok i) ↔ ¬ ∃ e, decode w = .error e := by
  cases decode w <;> simp

open Laws.EncodesItsRow in
/-- R78, for every instruction. -/
theorem encodesItsRow (i : Instr) : Statement i := by
  cases i
  exacts [cls, ret, jp _, call _, seImm _ _, sneImm _ _, seReg _ _, ldImm _ _, addImm _ _, ldReg _ _, orReg _ _,
    andReg _ _, xorReg _ _, addReg _ _, subReg _ _, shr _ _, subnReg _ _, shl _ _, sneReg _ _, ldI _, jpV0 _, rnd _ _,
    drw _ _ _, skp _, sknp _, ldVxDt _, ldVxK _, ldDtVx _, ldStVx _, addI _, ldF _, ldB _, stRegs _, ldRegs _]

/-- Two rows that agree on the bits both of them look at are the same row. -/
theorem opcodeRows_disjoint : ∀ row ∈ opcodeRows, ∀ row' ∈ opcodeRows,
    row.bits &&& row'.mask = row'.bits &&& row.mask → row = row' := by
  decide +kernel

theorem and_maskFFFF (w : Word) : w &&& 0xFFFF#16 = w := BitVec.and_allOnes

/-- A word that matches a row is in none of the classes of illegal words. -/
theorem exists_decode_of_matches {w : Word} {row : OpcodeRow} (hrow : row ∈ opcodeRows)
    (hw : w &&& row.mask = row.bits) : ∃ i, decode w = .ok i := by
  have hn : (w &&& row.mask).toNat = row.bits.toNat := congrArg BitVec.toNat hw
  rw [exists_decode_ok_iff, illegalWordsByFamily w]
  simp only [opcodeRows, opcodeRowsLow, opcodeRowsMid, opcodeRowsHigh, List.cons_append, List.nil_append] at hrow
  fin_cases hrow
  all_goals
    simp only [BitVec.ofNat_eq_ofNat, and_maskFFFF, and_maskF000_toNat, and_maskF00F_toNat, and_maskF0FF_toNat,
      BitVec.toNat_ofNat, Nat.reducePow, Nat.reduceMod] at hn
    simp only [List.mem_cons, List.not_mem_nil, or_false]
    omega

/-- Settles O3: a decoded word is the word of its instruction, which matches that instruction's row; a word that matches
a row is not illegal; and the rows are disjoint. -/
theorem decodeAcceptsExactlyTheOpcodeMap : Obligations.DecodeAcceptsExactlyTheOpcodeMap := by
  have hrow (w : Word) (i : Instr) (h : decode w = .ok i) :
      i.rowOf ∈ opcodeRows ∧ w &&& i.rowOf.mask = i.rowOf.bits := by
    obtain ⟨-, rfl⟩ := encodeInvertsDecode w i h
    exact encodesItsRow i
  refine ⟨fun w => ⟨fun ⟨i, h⟩ => ⟨_, hrow w i h⟩, fun ⟨_, hmem, hw⟩ => exists_decode_of_matches hmem hw⟩, hrow,
    ?disjoint⟩
  case disjoint =>
    intro w row hmem row' hmem' hw hw'
    refine opcodeRows_disjoint row hmem row' hmem' ?_
    rw [← hw, ← hw', BitVec.and_assoc, BitVec.and_assoc, BitVec.and_comm row.mask]

/-- Settles O5, by running the decoder on each word. -/
theorem sampleWordsDecode : Obligations.SampleWordsDecode :=
  ⟨rfl, rfl, rfl, rfl, rfl, rfl, rfl⟩

end Sys2Proof
end

section
/-! PROOFS. The invariant of the machine (10_state.md, 20_memory.md section 1, 46_execution_loop.md section 2): one
rule for each operation, and then every step, whose last phase is the one that ends a run. -/

namespace Sys2Proof.Machine

namespace State.Inv

variable {s t : State}

/-! ## Operations on registers, PC and memory -/

theorem setReg (h : s.Inv) (x : Reg) (b : Byte) : (s.setReg x b).Inv := { h with }

theorem setResultAndFlag (h : s.Inv) (x : Reg) (a b : Byte) : (s.setResultAndFlag x a b).Inv := { h with }

theorem setIndex (h : s.Inv) (w : Word) : (s.setIndex w).Inv := { h with }

theorem bumpIndex (h : s.Inv) (n : Nat) : (s.bumpIndex n).Inv := by
  unfold State.bumpIndex
  split
  next => exact h.setIndex _
  next => exact h

theorem loadRegsUpTo (h : s.Inv) (x : Reg) : (s.loadRegsUpTo x).Inv where
  memWf := by simpa using h.memWf
  paramsWf := by simpa using h.paramsWf
  tdivLt := by simpa using h.tdivLt
  pcLe := by simpa using h.pcLe
  stackLe := by simpa using h.stackLe
  outcome := by simpa using h.outcome

theorem setDelay (h : s.Inv) (b : Byte) : (s.setDelay b).Inv := { h with }

theorem setSound (h : s.Inv) (b : Byte) : (s.setSound b).Inv := { h with }

theorem setFrame (h : s.Inv) (fb : FrameBuf) : (s.setFrame fb).Inv := { h with }

theorem setPC (h : s.Inv) {w : Word} (hw : w.toNat ≤ 0x10FE) : (s.setPC w).Inv := { h with pcLe := hw }

/-- An instruction that was fetched stands at most at 4094, so a skip over the next one stays in bounds. -/
theorem skipIf (h : s.Inv) (hpc : s.pc.toNat ≤ 4094) (c : Bool) : (s.skipIf c).Inv := by
  refine h.setPC ?_
  rw [addWord_toNat]
  split <;> omega

theorem advance (h : s.Inv) (hpc : s.pc.toNat ≤ 4094) : s.advance.Inv := h.skipIf hpc false

theorem storeAtIndex (h : s.Inv) {bytes : List Byte} (hfits : s.i.toNat + bytes.length ≤ memBytes) :
    (s.storeAtIndex bytes).Inv :=
  { h with memWf := Memory.wf_writeBytes h.memWf hfits }

/-! ## The call stack -/

theorem push (h : s.Inv) {ret : Word} (hret : ret.toNat ≤ 0x1000) (hpush : s.push ret = some t) : t.Inv := by
  obtain ⟨hroom, _, -, rfl⟩ := State.push_some hpush
  refine { h with stackLe := fun k => ?_ }
  by_cases hk : s.sp.val = k.val
  · simpa [hk] using hret
  · simpa [hk] using h.stackLe k

theorem pop (h : s.Inv) {ret : Word} (hpop : s.pop = some (ret, t)) : t.Inv ∧ ret.toNat ≤ 0x1000 := by
  obtain ⟨hpos, _, rfl, -, rfl⟩ := State.pop_some hpop
  exact ⟨{ h with }, h.stackLe ⟨s.sp.val - 1, by omega⟩⟩

/-! ## The execute phase -/

theorem takeFault (h : s.Inv) {f : FaultInfo} (hends : f.endsLoop = true) : (s.takeFault f).Inv :=
  { h with outcome := hends }

theorem of_withData {n : Nat} {r : StepResult} (h : s.Inv) (hr : withData s n r = .next t)
    (hinside : n = 0 ∨ s.i.toNat + n ≤ memBytes → r = .next t → t.Inv) : t.Inv := by
  obtain ⟨hdone, hbounds⟩ | ⟨rfl, -, -⟩ := withData_next hr
  · exact hinside hbounds hdone
  · exact h.takeFault rfl

theorem of_withHexOperand {x : Reg} {r : Fin 16 → StepResult} (h : s.Inv) (hr : withHexOperand s x r = .next t)
    (hnamed : ∀ k, r k = .next t → t.Inv) : t.Inv := by
  obtain ⟨k, -, hdone⟩ | ⟨-, -, rfl⟩ := withHexOperand_next hr
  · exact hnamed k hdone
  · exact h.takeFault rfl

/-- R102: a fetched call pushes an address of at most 0x1000. -/
theorem of_call {nnn : BitVec 12} (h : s.Inv) (hpc : s.pc.toNat ≤ 4094) (hr : execCall nnn s = .next t) : t.Inv := by
  unfold execCall at hr
  split at hr
  next u hpush =>
    cases hr
    have hret : (addWord s.pc 2).toNat ≤ 0x1000 := by rw [addWord_toNat]; omega
    exact (h.push hret hpush).setPC (by rw [wordOfNNN_toNat]; omega)
  next =>
    cases hr
    exact h.takeFault rfl

theorem of_ret (h : s.Inv) (hr : execRet s = .next t) : t.Inv := by
  unfold execRet at hr
  split at hr
  next ret u hpop =>
    cases hr
    obtain ⟨hu, hret⟩ := h.pop hpop
    exact hu.setPC (by omega)
  next =>
    cases hr
    exact h.takeFault rfl

theorem of_ldVxK {x : Reg} (h : s.Inv) (hpc : s.pc.toNat ≤ 4094) (hr : execLdVxK x s = .next t) : t.Inv := by
  unfold execLdVxK at hr
  split at hr
  next => cases hr; exact h
  next => cases hr; exact (h.setReg x _).advance hpc

/-- Every instruction that was fetched keeps the invariant, whether it completes, holds or faults. -/
theorem of_exec {i : Instr} (h : s.Inv) (hpc : s.pc.toNat ≤ 4094) (hr : exec i s = .next t) : t.Inv := by
  cases i with
  | ret => exact h.of_ret hr
  | call => exact h.of_call hpc hr
  | ldVxK => exact h.of_ldVxK hpc hr
  | skp | sknp =>
    refine h.of_withHexOperand hr fun _ hdone => ?_
    cases hdone
    exact h.skipIf hpc _
  | ldF =>
    refine h.of_withHexOperand hr fun _ hdone => ?_
    cases hdone
    exact (h.setIndex _).advance hpc
  | drw =>
    refine h.of_withData hr fun _ hdone => ?_
    cases hdone
    exact ((h.setFrame _).setReg _ _).advance hpc
  | ldB =>
    refine h.of_withData hr fun hbounds hdone => ?_
    cases hdone
    exact (h.storeAtIndex (bytes := bcdDigits _) (hbounds.resolve_left (by decide))).advance hpc
  | stRegs x =>
    refine h.of_withData hr fun hbounds hdone => ?_
    cases hdone
    have hfits : s.i.toNat + (s.regsUpTo x).length ≤ memBytes := by simpa using hbounds
    exact ((h.storeAtIndex hfits).bumpIndex _).advance (by simpa using hpc)
  | ldRegs x =>
    refine h.of_withData hr fun _ hdone => ?_
    cases hdone
    exact ((h.loadRegsUpTo x).bumpIndex _).advance (by simpa using hpc)
  | jp =>
    cases hr
    exact h.setPC (by rw [wordOfNNN_toNat]; omega)
  | jpV0 =>
    cases hr
    exact h.setPC (by rw [addWord_toNat, wordOfNNN_toNat]; omega)
  | cls => cases hr; exact (h.setFrame _).advance hpc
  | seImm | sneImm | seReg | sneReg => cases hr; exact h.skipIf hpc _
  | ldImm | addImm | ldReg | orReg | andReg | xorReg | rnd | ldVxDt => cases hr; exact (h.setReg _ _).advance hpc
  | addReg | subReg | shr | subnReg | shl => cases hr; exact (h.setResultAndFlag _ _ _).advance hpc
  | ldI | addI => cases hr; exact (h.setIndex _).advance hpc
  | ldDtVx => cases hr; exact (h.setDelay _).advance hpc
  | ldStVx => cases hr; exact (h.setSound _).advance hpc

/-! ## The later phases of a tick -/

/-- R35, R213: the counter starts again at 0 when it reaches the divider. -/
theorem timerUpdate (h : s.Inv) : s.timerUpdate.Inv := by
  have hlt := h.tdivLt
  unfold State.timerUpdate
  split
  next => exact { h with tdivLt := Nat.zero_lt_of_lt hlt }
  next hne => exact { h with tdivLt := Nat.lt_of_le_of_ne hlt hne }

theorem cancelCheck (h : s.Inv) : s.cancelCheck.Inv := by
  unfold State.cancelCheck
  split
  next => exact { h with outcome := rfl }
  next => exact h

theorem finishTick (h : s.Inv) : s.finishTick.Inv := by
  have hpresent : s.timerUpdate.present.Inv := { h.timerUpdate with }
  unfold State.finishTick
  split
  next =>
    have hkeys : s.timerUpdate.present.refreshKeys.Inv := { hpresent with }
    exact hkeys.cancelCheck
  next => exact hpresent.takeFault rfl

theorem afterExecute (h : s.Inv) : s.afterExecute.Inv := by
  unfold State.afterExecute
  split
  next => exact h
  next => exact h.finishTick

/-! ## The events of the host -/

theorem takeEvent (h : s.Inv) (rest : List HostEvent) : (s.takeEvent rest).Inv := { h with }

theorem answer (h : s.Inv) (c : CmdStatus) : (s.answer c).Inv := { h with }

theorem beginTick (h : s.Inv) (inp : TickInputs) : (s.beginTick inp).Inv := { h with }

theorem fetched (h : s.Inv) : s.fetched.Inv := { h with }

/-- R34, before the loop runs. -/
theorem result_eq_none_of_acceptsSetup (h : s.Inv) (hsetup : s.acceptsSetup = true) : s.result = .none := by
  have houtcome := h.outcome
  cases hr : s.result with
  | none => rfl
  | cancelled | fault =>
    obtain hl | hl := State.acceptsSetup_iff.mp hsetup <;> simp [hl, hr, resultAgrees] at houtcome

theorem cmdInitialize (h : s.Inv) : s.cmdInitialize.Inv := by
  cases hsetup : s.acceptsSetup with
  | true =>
    rw [State.cmdInitialize_accepted hsetup]
    have hfits : fontBase + s.params.font.toList.length ≤ memBytes := by simp [fontBase, memBytes]
    exact
      { h with
        memWf := Memory.wf_writeBytes h.memWf hfits
        pcLe := (by decide : entryPC.toNat ≤ 0x10FE)
        outcome := congrArg (resultAgrees .ready) (h.result_eq_none_of_acceptsSetup hsetup) }
  | false =>
    rw [State.cmdInitialize_refused hsetup]
    exact h.answer .refused

theorem cmdLoad (h : s.Inv) (bytes : List Byte) : (s.cmdLoad bytes).Inv := by
  cases hsetup : s.acceptsSetup with
  | true =>
    cases hfits : imageFits bytes with
    | true =>
      rw [State.cmdLoad_accepted hsetup hfits]
      exact { h with memWf := Memory.wf_writeBytes h.memWf (of_decide_eq_true hfits) }
    | false =>
      rw [State.cmdLoad_tooLong hsetup hfits]
      exact h.answer _
  | false =>
    rw [State.cmdLoad_refused bytes hsetup]
    exact h.answer .refused

theorem cmdRun (h : s.Inv) (bound : Bool) : (s.cmdRun bound).Inv := by
  by_cases hl : s.lstate = .ready
  · cases bound with
    | true =>
      rw [State.cmdRun_accepted hl]
      have hnone := h.result_eq_none_of_acceptsSetup (State.acceptsSetup_iff.mpr (.inr hl))
      exact { h with outcome := congrArg (resultAgrees .running) hnone }
    | false =>
      rw [State.cmdRun_unbound hl]
      exact h.answer _
  · rw [State.cmdRun_refused bound hl]
    exact h.answer .refused

end State.Inv

/-! ## The statements -/

/-- Settles O57, by the cases of a step. -/
theorem stepKeepsTheInvariant : Obligations.StepKeepsTheInvariant := by
  intro s t hinv hstep
  cases step_cases hstep with
  | idle => exact hinv
  | initializeCmd rest => exact (hinv.takeEvent rest).cmdInitialize
  | loadCmd bytes rest => exact (hinv.takeEvent rest).cmdLoad bytes
  | runCmd bound rest => exact (hinv.takeEvent rest).cmdRun bound
  | tickRefused inp rest => exact (hinv.takeEvent rest).answer .refused
  | fetchFault inp rest => exact ((hinv.takeEvent rest).beginTick inp).takeFault rfl
  | decodeFault inp rest => exact ((hinv.takeEvent rest).beginTick inp).fetched.takeFault rfl
  | executed inp rest i u _ _ hpc _ hexec =>
    exact (((hinv.takeEvent rest).beginTick inp).fetched.of_exec hpc hexec).afterExecute

/-- Settles O56. -/
theorem resetMeetsTheInvariant : Obligations.ResetMeetsTheInvariant :=
  { memWf := Memory.wf_powerOn defaultParams
    paramsWf := by decide
    tdivLt := by decide
    pcLe := by decide
    stackLe := fun k => by simp [State.reset, State.powerOn]
    outcome := rfl }

/-- Settles O36: the two ends of an execute phase. -/
theorem executeIsAllOrNothing : Obligations.ExecuteIsAllOrNothing := by
  intro i s t hexec
  cases exec_cases hexec with
  | completed hlstate hresult => exact .inl ⟨hlstate, hresult⟩
  | faulted f hends => exact .inr ⟨rfl, ⟨f, rfl, hends⟩, onlyChanges_takeFault s f⟩

end Sys2Proof.Machine
end

section
/-! PROOFS. Why a run has ended (60_exceptions.md sections 2 and 3): an execute phase that enters a fault has found
its cause, and of the later phases presentation and the cancellation check end the loop, each with the input that says
so. -/

namespace Sys2Proof.Machine

/-! ## The execute phase -/

/-- The two ends of an execute phase, as far as `RESULT` tells them apart: it is as before, or the phase is a fault
entry whose cause the state shows. -/
def ResultKeptOrExplained (s t : State) : Prop := t.result = s.result ∨ ∃ f, t = s.takeFault f ∧ f.explainedBy s

section

variable {s t : State} {i : Instr}

theorem resultKeptOrExplained_of_withData {r : StepResult} (hd : decode s.ir = .ok i)
    (h : withData s (bytesAtIndex i) r = .next t) (hinside : r = .next t → t.result = s.result) :
    ResultKeptOrExplained s t := by
  obtain ⟨hr, -⟩ | ⟨rfl, hne, hlt⟩ := withData_next h
  · exact .inl (hinside hr)
  · exact .inr ⟨_, rfl, .inr ⟨rfl, i, hd, hne, hlt⟩⟩

theorem resultKeptOrExplained_of_withHexOperand {x : Reg} {r : Fin 16 → StepResult}
    (hd : decode s.ir = .ok (.skp x) ∨ decode s.ir = .ok (.sknp x) ∨ decode s.ir = .ok (.ldF x))
    (h : withHexOperand s x r = .next t) (hnamed : ∀ k, r k = .next t → t.result = s.result) :
    ResultKeptOrExplained s t := by
  obtain ⟨k, -, hr⟩ | ⟨hkey, hlt, rfl⟩ := withHexOperand_next h
  · exact .inl (hnamed k hr)
  · exact .inr ⟨_, rfl, hkey, hlt, x, rfl, hd⟩

theorem resultKeptOrExplained_of_call {nnn : BitVec 12} (hd : decode s.ir = .ok (.call nnn))
    (h : execCall nnn s = .next t) : ResultKeptOrExplained s t := by
  unfold execCall at h
  split at h
  next u hpush =>
    obtain ⟨_, _, _, rfl⟩ := State.push_some hpush
    cases h
    exact .inl rfl
  next hpush =>
    cases h
    exact .inr ⟨_, rfl, rfl, Fin.ext (State.push_none.mp hpush), nnn, hd⟩

theorem resultKeptOrExplained_of_ret (hd : decode s.ir = .ok .ret) (h : execRet s = .next t) :
    ResultKeptOrExplained s t := by
  unfold execRet at h
  split at h
  next ret u hpop =>
    obtain ⟨_, _, _, _, rfl⟩ := State.pop_some hpop
    cases h
    exact .inl rfl
  next hpop =>
    cases h
    exact .inr ⟨_, rfl, rfl, Fin.ext (State.pop_none.mp hpop), hd⟩

/-- An instruction keeps what it may not write. -/
theorem Part.same_of_exec {p : Part} (h : exec i s = .next t) (hp : mayWrite s i p = false) : p.same s t := by
  obtain ⟨u, hexec, hsame⟩ := exec_answersWithin_mayWrite i s
  obtain rfl : u = t := Host.Outcome.next.inj (hexec.symm.trans h)
  exact hsame p hp

/-- Each fault is raised by the instructions that R231 lists for it, under the condition it lists. -/
theorem exec_resultKeptOrExplained (h : exec i s = .next t) (hd : decode s.ir = .ok i) :
    ResultKeptOrExplained s t := by
  cases i with
  | ret => exact resultKeptOrExplained_of_ret hd h
  | call => exact resultKeptOrExplained_of_call hd h
  | skp | sknp | ldF =>
    refine resultKeptOrExplained_of_withHexOperand (by simp [hd]) h fun _ hr => ?_
    cases hr
    rfl
  | drw | ldB | stRegs | ldRegs =>
    refine resultKeptOrExplained_of_withData hd h fun hr => ?_
    cases hr
    simp
  | _ => exact .inl (Part.same_of_exec (p := .result) h rfl)

/-! ## The ends of a step -/

theorem State.causeShown_of_result_none (h : s.result = .none) : s.causeShown := by
  simp [State.causeShown, h]

/-- R240: a fault entry leaves what explains the fault as it was. -/
theorem State.causeShown_takeFault {f : FaultInfo} (h : f.explainedBy s) : (s.takeFault f).causeShown := by
  cases f <;> exact h

/-- R214, R216: the later phases end a run that had no result by a failed presentation or by cancellation. -/
theorem State.causeShown_finishTick (h : s.result = .none) : s.finishTick.causeShown := by
  unfold State.finishTick
  split
  next =>
    unfold State.cancelCheck
    split
    next hcancel => exact hcancel
    next => exact State.causeShown_of_result_none (by simpa using h)
  next hfailed =>
    refine State.causeShown_takeFault ⟨?_, ?_⟩
    · simpa using hfailed
    · simp

/-- R205, R220: a command is refused, and the state still shows what it showed, or the loop has no result yet. -/
theorem State.causeShown_cmdInitialize (hinv : s.Inv) (h : s.causeShown) : s.cmdInitialize.causeShown := by
  cases hsetup : s.acceptsSetup with
  | true => exact State.causeShown_of_result_none (by simp [hinv.result_eq_none_of_acceptsSetup hsetup])
  | false =>
    rw [State.cmdInitialize_refused hsetup]
    exact h

theorem State.causeShown_cmdLoad (hinv : s.Inv) (h : s.causeShown) (bytes : List Byte) :
    (s.cmdLoad bytes).causeShown := by
  cases hsetup : s.acceptsSetup with
  | true => exact State.causeShown_of_result_none (by simp [hinv.result_eq_none_of_acceptsSetup hsetup])
  | false =>
    rw [State.cmdLoad_refused bytes hsetup]
    exact h

theorem State.causeShown_cmdRun (hinv : s.Inv) (h : s.causeShown) (bound : Bool) : (s.cmdRun bound).causeShown := by
  by_cases hl : s.lstate = .ready
  · have hsetup := State.acceptsSetup_iff.mpr (.inr hl)
    exact State.causeShown_of_result_none (by simp [hinv.result_eq_none_of_acceptsSetup hsetup])
  · rw [State.cmdRun_refused bound hl]
    exact h

end

/-- Settles O58, by the cases of a step: a step that sets `RESULT` leaves the cause in the state. -/
theorem finalStateShowsItsCause : Obligations.FinalStateShowsItsCause := by
  intro s t hinv hcause hstep
  cases step_cases hstep with
  | idle => exact hcause
  | initializeCmd rest => exact State.causeShown_cmdInitialize (hinv.takeEvent rest) hcause
  | loadCmd bytes rest => exact State.causeShown_cmdLoad (hinv.takeEvent rest) hcause bytes
  | runCmd bound rest => exact State.causeShown_cmdRun (hinv.takeEvent rest) hcause bound
  | tickRefused => exact hcause
  | fetchFault inp rest _ _ hpc => exact State.causeShown_takeFault (.inl ⟨rfl, hpc⟩)
  | decodeFault inp rest e _ _ _ hd => exact State.causeShown_takeFault ⟨rfl, rfl, e, hd⟩
  | executed inp rest i u _ hl _ hd hexec =>
    obtain hkept | ⟨f, rfl, hf⟩ := exec_resultKeptOrExplained hexec hd
    · have hnone : u.result = .none := hkept.trans (hinv.result_eq_none hl)
      unfold State.afterExecute
      split
      next => exact State.causeShown_of_result_none hnone
      next => exact State.causeShown_finishTick hnone
    · exact State.causeShown_takeFault hf

end Sys2Proof.Machine
end

section
/-! PROOFS. Subtraction, shifts and the random byte (41_alu.md R130 to R134).  The two subtractions are one difference
in two operand orders, the two shifts one pair of a result and the bit shifted out. -/

namespace Sys2Proof.Machine

/-! ## Subtraction -/

/-- R130, R132: the exact difference, taken `mod 256`. -/
theorem subByte_toNat_eq_sub_emod (a b : Byte) : ((subByte a b).toNat : Int) = (a.toNat - b.toNat : Int) % 256 := by
  have := b.isLt
  rw [subByte_toNat]
  omega

theorem subBorrow_iff (a b : Byte) : subBorrow a b = true ↔ a.toNat < b.toNat := by simp [subBorrow]

/-- R135: the borrow as VF holds it under `SUB_FLAG = borrow`. -/
theorem flagByte_subFlag_borrow_toNat (a b : Byte) :
    (flagByte (subFlag .borrow (subBorrow a b))).toNat = if a.toNat < b.toNat then 1 else 0 := by
  simp only [subFlag, flagByte_toNat, subBorrow_iff]

theorem flagByte_subFlag_notBorrow_toNat (a b : Byte) :
    (flagByte (subFlag .notBorrow (subBorrow a b))).toNat = if a.toNat < b.toNat then 0 else 1 := by
  simp only [subFlag, flagByte_toNat, Bool.not_eq_true', ← Bool.not_eq_true, subBorrow_iff]
  split <;> simp [*]

/-- What 8XY5 and 8XY7 do, `a` being the minuend and `b` the subtrahend. -/
theorem exists_next_difference (s : State) (x : Reg) (a b : Byte) :
    ∃ t, complete (s.setResultAndFlag x (subByte a b)
        (flagByte (subFlag s.params.subFlag (subBorrow a b)))).advance = .next t ∧
      (x ≠ regF → ((t.reg x).toNat : Int) = (a.toNat - b.toNat : Int) % 256) ∧
      (s.params.subFlag = .borrow → (t.reg regF).toNat = (if a.toNat < b.toNat then 1 else 0)) ∧
      (s.params.subFlag = .notBorrow → (t.reg regF).toNat = (if a.toNat < b.toNat then 0 else 1)) ∧
      PcMovesBy 2 s t ∧ OnlyChanges [.reg x, .reg regF, .pc] s t := by
  refine ⟨_, rfl, fun hx => ?difference, fun hflag => ?borrow, fun hflag => ?notBorrow, pcMovesBy_two_advance rfl,
    onlyChanges_setResultAndFlag_advance s x _ _⟩
  case difference => rw [reg_setResultAndFlag_advance_same s _ _ hx, subByte_toNat_eq_sub_emod]
  case borrow => rw [regF_setResultAndFlag_advance, hflag, flagByte_subFlag_borrow_toNat]
  case notBorrow => rw [regF_setResultAndFlag_advance, hflag, flagByte_subFlag_notBorrow_toNat]

/-- Settles O9: one difference, in the two operand orders. -/
theorem subtractBothOrders : Obligations.SubtractBothOrders := fun x _ s =>
  ⟨exists_next_difference s x _ _, exists_next_difference s x _ _⟩

/-! ## Shifts -/

theorem flagByte_shrOut_toNat (a : Byte) : (flagByte (shrOut a)).toNat = a.toNat % 2 := by
  simp only [flagByte_toNat, shrOut_eq, decide_eq_true_eq]
  split <;> omega

theorem flagByte_shlOut_toNat (a : Byte) : (flagByte (shlOut a)).toNat = a.toNat / 128 := by
  have := a.isLt
  simp only [flagByte_toNat, shlOut_eq, decide_eq_true_eq]
  split <;> omega

/-- The premises of `ShiftsByOne` say which register `SHIFT_SOURCE` names. -/
theorem shiftOperand_eq {s : State} {x y : Reg} {source : Byte} (hx : s.params.shiftSource = .vx → source = s.reg x)
    (hy : s.params.shiftSource = .vy → source = s.reg y) : s.shiftOperand x y = source := by
  unfold State.shiftOperand
  split
  next h => exact (hx h).symm
  next h => exact (hy h).symm

/-- What 8XY6 and 8XYE do, `result` and `out` being the shifted source and the bit shifted out. -/
theorem exists_next_shifted (s : State) (x : Reg) (result out : Byte) :
    ∃ t, complete (s.setResultAndFlag x result out).advance = .next t ∧
      (x ≠ regF → (t.reg x).toNat = result.toNat) ∧ (t.reg regF).toNat = out.toNat ∧
      PcMovesBy 2 s t ∧ OnlyChanges [.reg x, .reg regF, .pc] s t :=
  ⟨_, rfl, fun hx => by rw [reg_setResultAndFlag_advance_same s _ _ hx], by rw [regF_setResultAndFlag_advance],
    pcMovesBy_two_advance rfl, onlyChanges_setResultAndFlag_advance s x _ _⟩

/-- Settles O10: a shift of the source that the premises name. -/
theorem shiftsByOne : Obligations.ShiftsByOne := by
  intro x y s source hx hy
  obtain rfl := shiftOperand_eq hx hy
  refine ⟨?right, ?left⟩
  case right =>
    have h := exists_next_shifted s x (shrByte (s.shiftOperand x y)) (flagByte (shrOut (s.shiftOperand x y)))
    rwa [shrByte_toNat, flagByte_shrOut_toNat] at h
  case left =>
    have h := exists_next_shifted s x (shlByte (s.shiftOperand x y)) (flagByte (shlOut (s.shiftOperand x y)))
    rwa [shlByte_toNat, flagByte_shlOut_toNat] at h

/-! ## The random byte -/

/-- Settles O11: CXNN writes one register, and a bit of a conjunction is the conjunction of the bits. -/
theorem randomIsMaskedInput : Obligations.RandomIsMaskedInput := by
  intro x nn s
  refine ⟨(s.setReg x (s.inputs.rnd &&& nn)).advance, rfl, fun b _ => ?bits, pcMovesBy_two_advance rfl,
    onlyChanges_setReg_advance s x _⟩
  case bits => rw [reg_setReg_advance_same, BitVec.getLsbD_and]

end Sys2Proof.Machine
end

section
/-! PROOFS. Control transfer (40_flow.md R102 to R108): the jump with offset, the two ends of a call and of a return,
and the comparisons. -/

namespace Sys2Proof.Machine

/-- Settles O13: neither NNN + V0 nor the bound reaches 65536, so nothing is reduced. -/
theorem jumpWithOffset : Obligations.JumpWithOffset := by
  intro nnn s
  have hnnn := nnn.isLt
  have hv0 := (s.reg 0).isLt
  have hsum : (addWord (wordOfNNN nnn) (s.reg 0).toNat).toNat = nnn.toNat + (s.reg 0).toNat := by
    rw [addWord_toNat, wordOfNNN_toNat]
    omega
  exact ⟨s.setPC (addWord (wordOfNNN nnn) (s.reg 0).toNat), rfl, hsum, hsum.trans_le (by omega), onlyChanges_setPC s _⟩

/-! ## Call and return -/

theorem exec_call_of_full (nnn : BitVec 12) {s : State} (hfull : s.sp.val = 16) :
    exec (.call nnn) s = .next (s.takeFault (.stackOverflow s.pc)) := by
  have hexec : exec (.call nnn) s = execCall nnn s := rfl
  rw [hexec, execCall, State.push_none.mpr hfull, raise_eq]

theorem exec_ret_of_empty {s : State} (hempty : s.sp.val = 0) :
    exec .ret s = .next (s.takeFault (.stackUnderflow s.pc)) := by
  have hexec : exec .ret s = execRet s := rfl
  rw [hexec, execRet, State.pop_none.mpr hempty, raise_eq]

/-- Settles O14: a push and a jump, or the fault entry. -/
theorem callPushesOrOverflows : Obligations.CallPushesOrOverflows := by
  intro nnn s
  refine ⟨fun k hk => ?room, fun hfull => ⟨_, exec_call_of_full nnn hfull, rfl, rfl, onlyChanges_takeFault s _⟩⟩
  case room =>
    have hsp : s.sp = k.castSucc := Fin.ext hk.symm
    refine ⟨_, exec_call_of_room nnn hsp, ?pushed, by simp [hk], wordOfNNN_toNat nnn, ?frame⟩
    case pushed => simp [addWord_toNat]
    case frame =>
      intro p hp
      cases p with
      | slot j =>
        have hj : k.val ≠ j.val := fun e => hp (by simp [Fin.ext e])
        exact Vector.getElem_set_ne k.isLt j.isLt hj
      | pc | sp => simp at hp
      | _ => rfl

/-- Settles O15: a pop and a jump, or the fault entry. -/
theorem returnPopsOrUnderflows : Obligations.ReturnPopsOrUnderflows := by
  intro s
  refine ⟨fun k hk => ?stacked, fun hempty => ⟨_, exec_ret_of_empty hempty, rfl, rfl, onlyChanges_takeFault s _⟩⟩
  case stacked =>
    have hsp : s.sp = k.succ := Fin.ext hk.symm
    refine ⟨_, exec_ret_of_stacked hsp, rfl, rfl, ?frame⟩
    case frame =>
      intro p hp
      cases p with
      | pc | sp => simp at hp
      | _ => rfl

/-! ## Comparisons -/

theorem exists_next_skipIf_eq (s : State) (a b : Byte) :
    ∃ t, complete (s.skipIf (a == b)) = .next t ∧ PcMovesBy (if a = b then 4 else 2) s t ∧
      OnlyChanges [.pc] s t :=
  ⟨_, rfl, by simpa using pcMovesBy_skipIf s (a == b), onlyChanges_skipIf s _⟩

theorem exists_next_skipIf_ne (s : State) (a b : Byte) :
    ∃ t, complete (s.skipIf (a != b)) = .next t ∧ PcMovesBy (if a = b then 2 else 4) s t ∧
      OnlyChanges [.pc] s t := by
  have hmoves := pcMovesBy_skipIf_not s (a == b)
  simp only [beq_iff_eq] at hmoves
  exact ⟨_, rfl, hmoves, onlyChanges_skipIf s _⟩

/-- Settles O17: two skips on equality and two on its negation. -/
theorem skipsOnComparison : Obligations.SkipsOnComparison := fun _ _ _ s =>
  ⟨exists_next_skipIf_eq s _ _, exists_next_skipIf_ne s _ _, exists_next_skipIf_eq s _ _,
    exists_next_skipIf_ne s _ _⟩

end Sys2Proof.Machine
end

section
/-! PROOFS. Index register, keys and timers (42_index_memory.md R142, R143; 44_keypad_timers.md): FX29 reads a digit as
EX9E and EXA1 read a key number, and all three take the same fault. -/

namespace Sys2Proof.Machine

/-- Settles O19: FX1E writes I with the sum and advances. -/
theorem addToIndex : Obligations.AddToIndex := fun x s =>
  ⟨(s.setIndex (addWord s.i (s.reg x).toNat)).advance, rfl, addWord_toNat _ _, pcMovesBy_two_advance rfl,
    onlyChanges_setIndex_advance s _⟩

/-! ## The number that a register names (R143, R181) -/

theorem hexOperand_eq_some {m : KeyIndex} {b : Byte} (h : m = .mask ∨ b.toNat ≤ 15) :
    hexOperand m b = some (Fin.ofNat 16 b.toNat) := by
  have hnot : ¬(m = .fault ∧ 15 < b.toNat) := by
    rintro ⟨rfl, hlt⟩
    simp only [reduceCtorEq, false_or] at h
    omega
  rw [hexOperand_eq, if_neg hnot]

theorem hexOperand_eq_none {m : KeyIndex} {b : Byte} (hm : m = .fault) (hb : 15 < b.toNat) : hexOperand m b = none := by
  rw [hexOperand_eq, if_pos ⟨hm, hb⟩]

/-- R143: the sprites of the sixteen digits, five bytes each, end at 0x9F. -/
theorem fontAddress_toNat (d : Fin 16) : (fontAddress d).toNat = 0x50 + 5 * d.val := by
  have := d.isLt
  simp only [fontAddress, fontBase, BitVec.toNat_ofNat]
  omega

/-- Settles O20: I is the address of the named digit's sprite, or the register names none. -/
theorem fontSpriteAddress : Obligations.FontSpriteAddress := by
  intro x s
  refine ⟨fun hnamed => ?digit, fun hm hlt => ?fault⟩
  case digit =>
    exact ⟨_, withHexOperand_some (hexOperand_eq_some hnamed) _, fontAddress_toNat _, pcMovesBy_two_advance rfl,
      onlyChanges_setIndex_advance s _⟩
  case fault =>
    exact ⟨_, withHexOperand_none (hexOperand_eq_none hm hlt) _, rfl, rfl, onlyChanges_takeFault s _⟩

/-- Settles O32: the number is the low four bits, or both key skips enter the same fault. -/
theorem keyNumberFromRegister : Obligations.KeyNumberFromRegister := by
  intro x s
  refine ⟨fun hnamed => ⟨_, hexOperand_eq_some hnamed, rfl⟩, fun hm hlt => ?fault⟩
  case fault =>
    have hnone := hexOperand_eq_none hm hlt
    exact ⟨_, withHexOperand_none hnone _, withHexOperand_none hnone _, rfl, rfl, onlyChanges_takeFault s _⟩

/-! ## FX0A and the timers -/

theorem exec_ldVxK_of_up (x : Reg) {s : State} (h : lowestKey s.keys = none) : exec (.ldVxK x) s = .next s := by
  have hexec : exec (.ldVxK x) s = execLdVxK x s := rfl
  simp only [hexec, execLdVxK, h, complete_eq]

theorem exec_ldVxK_of_down (x : Reg) {s : State} {k : Nat} (h : lowestKey s.keys = some k) :
    exec (.ldVxK x) s = .next (s.setReg x (BitVec.ofNat 8 k)).advance := by
  have hexec : exec (.ldVxK x) s = execLdVxK x s := rfl
  simp only [hexec, execLdVxK, h, complete_eq]

/-- Settles O33: a hold when no key is down, else the lowest key. -/
theorem waitForKey : Obligations.WaitForKey := by
  intro x s
  refine ⟨fun hup => ⟨s, exec_ldVxK_of_up x ((lowestKey_none _).mpr hup), rfl⟩, fun k hk hdown hlower => ?key⟩
  case key =>
    have hlowest := (lowestKey_some s.keys k).mpr ⟨hk, hdown, hlower⟩
    refine ⟨_, exec_ldVxK_of_down x hlowest, ?number, pcMovesBy_two_advance rfl, onlyChanges_setReg_advance s x _⟩
    case number =>
      rw [reg_setReg_advance_same, BitVec.toNat_ofNat]
      omega

theorem onlyChanges_setDelay_advance (s : State) (b : Byte) : OnlyChanges [.dt, .pc] s (s.setDelay b).advance := by
  intro p hp
  obtain ⟨hdt, hpc⟩ : p ≠ .dt ∧ p ≠ .pc := by simpa using hp
  exact (Part.same_advance hpc).mpr ((Part.same_setDelay hdt).mpr (p.same_refl s))

theorem onlyChanges_setSound_advance (s : State) (b : Byte) : OnlyChanges [.st, .pc] s (s.setSound b).advance := by
  intro p hp
  obtain ⟨hst, hpc⟩ : p ≠ .st ∧ p ≠ .pc := by simpa using hp
  exact (Part.same_advance hpc).mpr ((Part.same_setSound hst).mpr (p.same_refl s))

/-- Settles O34: each of the three writes one register or timer and advances. -/
theorem timerTransfers : Obligations.TimerTransfers := fun x s =>
  ⟨⟨(s.setReg x s.dt).advance, rfl, reg_setReg_advance_same s x _, pcMovesBy_two_advance rfl,
      onlyChanges_setReg_advance s x _⟩,
    ⟨(s.setDelay (s.reg x)).advance, rfl, rfl, pcMovesBy_two_advance rfl, onlyChanges_setDelay_advance s _⟩,
    ⟨(s.setSound (s.reg x)).advance, rfl, rfl, pcMovesBy_two_advance rfl, onlyChanges_setSound_advance s _⟩⟩

end Sys2Proof.Machine
end

section
/-! PROOFS. Memory transfers (42_index_memory.md R144 to R146): an access of data at I is done whole or ends in
`MemoryBoundsError(I)`, and what a store leaves in memory is what the next fetch reads (20_memory.md section 6). -/

namespace Sys2Proof.Machine

/-! ## The two ends of an access at I -/

/-- R57 for an access that does not fit: the same end for every instruction. -/
theorem exists_next_memoryBoundsError {s : State} {n : Nat} (hn : n ≠ 0) (hout : 4096 < s.i.toNat + n)
    (r : StepResult) :
    ∃ t, withData s n r = .next t ∧ t.lstate = .failed ∧ t.result = .fault (.memoryBoundsError s.i) ∧
      OnlyChanges [.lstate, .result] s t :=
  ⟨_, withData_outside hn hout r, rfl, rfl, onlyChanges_takeFault s _⟩

theorem exec_ldB_of_fits (x : Reg) {s : State} (hfits : s.i.toNat + 3 ≤ 4096) :
    exec (.ldB x) s = .next (s.storeAtIndex (bcdDigits (s.reg x))).advance :=
  withData_inside (.inr hfits) _

theorem exec_stRegs_of_fits {x : Reg} {s : State} (hfits : s.i.toNat + x.val + 1 ≤ 4096) :
    exec (.stRegs x) s = .next ((s.storeAtIndex (s.regsUpTo x)).bumpIndex (x.val + 1)).advance :=
  withData_inside (.inr hfits) _

theorem exec_ldRegs_of_fits {x : Reg} {s : State} (hfits : s.i.toNat + x.val + 1 ≤ 4096) :
    exec (.ldRegs x) s = .next ((s.loadRegsUpTo x).bumpIndex (x.val + 1)).advance :=
  withData_inside (.inr hfits) _

/-! ## Frames -/

theorem isRegThrough_iff (x : Reg) (p : Part) : p.isRegThrough x = true ↔ p ∈ regsThrough x := by
  cases p <;> simp [Part.isRegThrough, regsThrough]

theorem Part.isStored_eq_false {a : Word} {n : Nat} {p : Part} (h : p ∉ storedBytes a n) : p.isStored a n = false :=
  Bool.eq_false_iff.mpr fun hp => h ((isStored_iff a n p).mp hp)

theorem onlyChanges_storeAtIndex_advance (s : State) (bytes : List Byte) :
    OnlyChanges (.pc :: storedBytes s.i bytes.length) s (s.storeAtIndex bytes).advance := by
  intro p hp
  obtain ⟨hpc, hstored⟩ : p ≠ .pc ∧ p ∉ storedBytes s.i bytes.length := by simpa using hp
  exact (Part.same_advance hpc).mpr ((Part.same_storeAtIndex (Part.isStored_eq_false hstored)).mpr (p.same_refl s))

theorem onlyChanges_storeAtIndex_bumpIndex_advance (s : State) (bytes : List Byte) (n : Nat) :
    OnlyChanges (.pc :: .i :: storedBytes s.i bytes.length) s ((s.storeAtIndex bytes).bumpIndex n).advance := by
  intro p hp
  obtain ⟨hpc, hi, hstored⟩ : p ≠ .pc ∧ p ≠ .i ∧ p ∉ storedBytes s.i bytes.length := by simpa using hp
  exact (Part.same_advance hpc).mpr ((Part.same_bumpIndex fun _ => hi).mpr
    ((Part.same_storeAtIndex (Part.isStored_eq_false hstored)).mpr (p.same_refl s)))

theorem onlyChanges_loadRegsUpTo_bumpIndex_advance (s : State) (x : Reg) (n : Nat) :
    OnlyChanges (.pc :: .i :: regsThrough x) s ((s.loadRegsUpTo x).bumpIndex n).advance := by
  intro p hp
  obtain ⟨hpc, hi, hregs⟩ : p ≠ .pc ∧ p ≠ .i ∧ p ∉ regsThrough x := by simpa using hp
  have hnot : p.isRegThrough x = false := Bool.eq_false_iff.mpr fun hp => hregs ((isRegThrough_iff x p).mp hp)
  exact (Part.same_advance hpc).mpr ((Part.same_bumpIndex fun _ => hi).mpr
    ((Part.same_loadRegsUpTo hnot).mpr (p.same_refl s)))

/-! ## Decimal digits -/

/-- R144: the three digits of a byte, one by one. -/
theorem bcdDigits_toNat (b : Byte) :
    ∃ h d o : Byte, bcdDigits b = [h, d, o] ∧ h.toNat ≤ 2 ∧ d.toNat ≤ 9 ∧ o.toNat ≤ 9 ∧
      100 * h.toNat + 10 * d.toNat + o.toNat = b.toNat := by
  have := b.isLt
  refine ⟨_, _, _, rfl, ?_⟩
  simp only [BitVec.toNat_ofNat]
  omega

/-- Settles O21: the stored block is the three digits. -/
theorem storeDecimalDigits : Obligations.StoreDecimalDigits := by
  intro x s
  refine ⟨fun hwf hfits => ?fits, exists_next_memoryBoundsError (by decide) (r := _)⟩
  case fits =>
    obtain ⟨h, d, o, hdigits, hh, hd, ho, hsum⟩ := bcdDigits_toNat (s.reg x)
    have hexec := exec_ldB_of_fits x hfits
    rw [hdigits] at hexec
    have hread : ∀ k (hk : k < 3), Memory.read (s.storeAtIndex [h, d, o]).mem (s.i.toNat + k) = [h, d, o][k] :=
      Memory.read_stored hwf (bytes := [h, d, o]) hfits
    exact ⟨_, h, d, o, hexec, hread 0 (by decide), hread 1 (by decide), hread 2 (by decide), hh, hd, ho, hsum,
      pcMovesBy_two_advance rfl, onlyChanges_storeAtIndex_advance s [h, d, o]⟩

/-! ## Blocks of registers -/

/-- Settles O22: the stored block is V0 to VX. -/
theorem storeRegisters : Obligations.StoreRegisters := by
  intro x s
  refine ⟨fun hwf hfits => ?fits, exists_next_memoryBoundsError (Nat.succ_ne_zero x.val) (r := _)⟩
  case fits =>
    have hlen := s.length_regsUpTo x
    refine ⟨_, exec_stRegs_of_fits hfits, fun r hr => ?stored, State.bumpIndex_i_toNat _ _,
      pcMovesBy_two_advance (by simp), ?frame⟩
    case stored =>
      have hread := Memory.read_stored hwf (a := s.i.toNat) (bytes := s.regsUpTo x) (by rwa [hlen]) r.val
        (by rw [hlen]; exact Nat.lt_succ_of_le hr)
      simpa [State.reg, State.getElem_regsUpTo s x r.val _ r.isLt] using hread
    case frame =>
      have hframe := onlyChanges_storeAtIndex_bumpIndex_advance s (s.regsUpTo x) (x.val + 1)
      rwa [hlen] at hframe

/-- Settles O23: the loaded registers are those that `loadRegsUpTo` replaces. -/
theorem loadRegisters : Obligations.LoadRegisters := by
  intro x s
  refine ⟨fun hfits => ?fits, exists_next_memoryBoundsError (Nat.succ_ne_zero x.val) (r := _)⟩
  case fits =>
    refine ⟨_, exec_ldRegs_of_fits hfits, fun r hr => ?loaded, ?index, pcMovesBy_two_advance (by simp),
      onlyChanges_loadRegsUpTo_bumpIndex_advance s x _⟩
    case loaded => simp [State.reg_loadRegsUpTo, hr]
    case index => simpa [Nat.add_assoc] using State.bumpIndex_i_toNat (s.loadRegsUpTo x) (x.val + 1)

/-- Settles O24: the store leaves V0 and V1 at the address that PC has moved on to. -/
theorem storedWordIsFetchedNext : Obligations.StoredWordIsFetchedNext := by
  intro x s t hwf hx hnext hfits hexec
  obtain ⟨u, hexec', hstored, -, hpc, -⟩ := (storeRegisters x s).1 hwf hfits
  obtain rfl : u = t := Host.Outcome.next.inj (hexec'.symm.trans hexec)
  have hpc' : u.pc.toNat = s.i.toNat := by
    rw [PcMovesBy] at hpc
    omega
  have h0 : Memory.read u.mem u.pc.toNat = s.reg 0 := hpc' ▸ hstored 0 (Fin.zero_le x)
  have h1 : Memory.read u.mem (u.pc.toNat + 1) = s.reg 1 := hpc' ▸ hstored 1 (Fin.le_def.mpr hx)
  refine ⟨(fetchInBounds_iff u).mpr (by omega), ?word⟩
  case word => rw [State.fetchWord, wordOfBytes_toNat, h0, h1]

end Sys2Proof.Machine
end

section
/-! PROOFS. The sprite draw and the delta (43_display.md R164 to R167).  The cells that DXYN toggles are a list without
repeats, and that list is `spriteCovers`; so a second draw over the same list undoes the first. -/

namespace Sys2Proof.Machine

/-! ## The cells of one draw -/

/-- The cells that DXYN toggles, read off the state it starts from. -/
def State.toggledCells (s : State) (x y : Reg) (n : Nat) : List Nat :=
  spriteCells s.params.drawEdge (s.drawOrigin x y).1 (s.drawOrigin x y).2 (Memory.readBytes s.mem s.i.toNat n)

theorem drawn_eq (s : State) (x y : Reg) (n : Nat) : s.drawn x y n = drawCells s.fb (s.toggledCells x y n) := rfl

section

variable {s : State} {x y : Reg} {n : Nat}

theorem lt_of_mem_toggledCells {j : Nat} (h : j ∈ s.toggledCells x y n) : j < 2048 := by
  obtain ⟨_, _, _, _, _, hcell⟩ := (mem_spriteCells _ _ _ _ _).mp h
  exact cellIndex_lt hcell

theorem nodup_toggledCells (hn : n ≤ 15) : (s.toggledCells x y n).Nodup :=
  nodup_spriteCells _ _ _ _ (by rw [Memory.length_readBytes]; omega)

/-- The list is what `spriteCovers` says of columns and rows. -/
theorem mem_toggledCells_iff {col row : Nat} (hcol : col < 64) (hrow : row < 32) :
    64 * row + col ∈ s.toggledCells x y n ↔ spriteCovers s x y n col row := by
  simp only [State.toggledCells, mem_spriteCells, Memory.length_readBytes, Memory.getElem_readBytes, spriteCovers,
    cellIndex_eq, exists_prop, exists_and_left, State.drawOrigin, fbCols, fbRows]
  refine exists_congr fun r => and_congr_right fun _ => exists_congr fun c => and_congr_right fun _ =>
    and_congr_right fun _ => ?_
  cases s.params.drawEdge with
  | wrap => simp; omega
  | clip => simp; omega

/-- A cell number is a row and a column. -/
theorem exists_mem_toggledCells_iff {P : Nat → Prop} :
    (∃ j ∈ s.toggledCells x y n, P j) ↔
      ∃ col row, col < 64 ∧ row < 32 ∧ spriteCovers s x y n col row ∧ P (64 * row + col) := by
  constructor
  · rintro ⟨j, hj, hP⟩
    have hlt := lt_of_mem_toggledCells hj
    have hcol : j % 64 < 64 := Nat.mod_lt j (by decide)
    have hrow : j / 64 < 32 := Nat.div_lt_of_lt_mul hlt
    rw [← Nat.div_add_mod j 64] at hj hP
    exact ⟨j % 64, j / 64, hcol, hrow, (mem_toggledCells_iff hcol hrow).mp hj, hP⟩
  · rintro ⟨col, row, hcol, hrow, hcovers, hP⟩
    exact ⟨_, (mem_toggledCells_iff hcol hrow).mpr hcovers, hP⟩

/-! ## What a draw does -/

/-- R164: each listed cell changes and every other one stays; a collision is a listed cell that was set. -/
theorem drawn_spec (s : State) (x y : Reg) (hn : n ≤ 15) :
    (∀ j, (s.drawn x y n).1.cell j = if j ∈ s.toggledCells x y n then !s.fb.cell j else s.fb.cell j) ∧
      ((s.drawn x y n).2 = true ↔ ∃ j ∈ s.toggledCells x y n, s.fb.cell j = true) := by
  obtain ⟨hcells, hany⟩ :=
    drawCells_nodup s.fb false (s.toggledCells x y n) (fun _ => lt_of_mem_toggledCells) (nodup_toggledCells hn)
  refine ⟨hcells, ?_⟩
  rw [drawn_eq, drawCells, hany, Bool.false_or, List.any_eq_true]

theorem exec_drw_of_fits (hfits : n = 0 ∨ s.i.toNat + n ≤ 4096) :
    exec (.drw x y n) s =
      .next ((s.setFrame (s.drawn x y n).1).setReg regF (flagByte (s.drawn x y n).2)).advance :=
  withData_inside hfits _

theorem onlyChanges_setFrame_setReg_advance (s : State) (fb : FrameBuf) (r : Reg) (b : Byte) :
    OnlyChanges (.pc :: .reg r :: allCells) s ((s.setFrame fb).setReg r b).advance := by
  intro p hp
  obtain ⟨hpc, hr, hcells⟩ : p ≠ .pc ∧ p ≠ .reg r ∧ p ∉ allCells := by simpa using hp
  exact (Part.same_advance hpc).mpr ((Part.same_setReg hr).mpr
    ((Part.same_setFrame_of_notMem_allCells hcells).mpr (p.same_refl s)))

end

/-- VF as the two clauses of a draw's statement read it. -/
theorem flagByte_of_iff {b : Bool} {P : Prop} (h : b = true ↔ P) : (P → flagByte b = 1) ∧ (¬ P → flagByte b = 0) := by
  cases b <;> simp_all [flagByte]

/-- Settles O26: the list of toggled cells is what the sprite covers. -/
theorem drawTogglesCoveredCells : Obligations.DrawTogglesCoveredCells := by
  intro x y n s hn hfits
  obtain ⟨hcell, hcollision⟩ := drawn_spec s x y hn
  have hcollides : (s.drawn x y n).2 = true ↔ spriteCollides s x y n := hcollision.trans exists_mem_toggledCells_iff
  obtain ⟨hset, hclear⟩ := flagByte_of_iff hcollides
  have hVF := reg_setReg_advance_same (s.setFrame (s.drawn x y n).1) regF (flagByte (s.drawn x y n).2)
  refine ⟨_, exec_drw_of_fits hfits, fun col row hcol hrow => ?cells, fun h => hVF.trans (hset h),
    fun h => hVF.trans (hclear h), pcMovesBy_two_advance rfl, onlyChanges_setFrame_setReg_advance s _ regF _⟩
  case cells =>
    rw [← mem_toggledCells_iff hcol hrow]
    exact ⟨fun h => (hcell _).trans (if_pos h), fun h => (hcell _).trans (if_neg h)⟩

/-- Settles O27. -/
theorem drawOutOfBoundsFaults : Obligations.DrawOutOfBoundsFaults := fun _ _ _ _ hpos hout =>
  exists_next_memoryBoundsError (Nat.ne_of_gt hpos) hout _

/-- Settles O28: both draws toggle the same cells, so the second one finds each of them negated and negates it again. -/
theorem drawingTwiceRestores : Obligations.DrawingTwiceRestores := by
  intro x y n s t u w hn hfits hfirst hfb hmem hi hparams hx hy hsecond
  have hcells : u.toggledCells x y n = s.toggledCells x y n := by
    simp only [State.toggledCells, State.drawOrigin, hmem, hi, hparams, hx, hy]
  rw [exec_drw_of_fits hfits] at hfirst
  rw [exec_drw_of_fits (by rwa [hi])] at hsecond
  cases hfirst
  cases hsecond
  have hu : ∀ j, u.fb.cell j = if j ∈ s.toggledCells x y n then !s.fb.cell j else s.fb.cell j := fun j =>
    (congrArg (FrameBuf.cell · j) hfb).trans ((drawn_spec s x y hn).1 j)
  obtain ⟨hcell, hcollision⟩ := drawn_spec u x y hn
  rw [hcells] at hcollision
  have hcollides : (u.drawn x y n).2 = true ↔ spriteSetsACell s x y n := by
    refine hcollision.trans ?_
    refine Iff.trans ?_ (exists_mem_toggledCells_iff (P := fun j => s.fb.cell j = false))
    refine exists_congr fun j => and_congr_right fun hj => ?_
    rw [hu, if_pos hj, Bool.not_eq_true']
  obtain ⟨hset, hclear⟩ := flagByte_of_iff hcollides
  have hVF := reg_setReg_advance_same (u.setFrame (u.drawn x y n).1) regF (flagByte (u.drawn x y n).2)
  refine ⟨FrameBuf.ext_cells fun j _ => ?restored, fun h => hVF.trans (hset h), fun h => hVF.trans (hclear h)⟩
  case restored =>
    refine (hcell j).trans ?_
    rw [hcells, hu]
    split
    next => exact Bool.not_not _
    next => rfl

/-! ## Applying a delta -/

/-- Pairs that name cells of `cur`, with their values there, make those cells the ones of `cur` and leave the rest. -/
theorem cell_applyDelta {cur : FrameBuf} (fb : FrameBuf) {d : List (Nat × Bool)}
    (hd : ∀ p ∈ d, p.1 < 2048 ∧ p.2 = cur.cell p.1) (j : Nat) :
    (applyDelta fb d).cell j = if j ∈ d.map Prod.fst then cur.cell j else fb.cell j := by
  induction d generalizing fb with
  | nil => simp [applyDelta]
  | cons p rest ih =>
    obtain ⟨⟨hlt, hp⟩, hrest⟩ := List.forall_mem_cons.mp hd
    have hcell : (applyDelta fb (p :: rest)).cell j =
        if j ∈ rest.map Prod.fst then cur.cell j else (fb.setCell p).cell j := ih (fb.setCell p) hrest
    rw [hcell, FrameBuf.cell_setCell fb p hlt, hp]
    by_cases hj : j = p.1
    · simp [hj]
    · simp [hj]

theorem delta_eq_nil_iff (prev cur : FrameBuf) : delta prev cur = [] ↔ prev = cur := by
  constructor
  · intro h
    refine FrameBuf.ext_cells fun j hj => ?_
    by_contra hne
    have hmem := (mem_delta prev cur j (cur.cell j)).mpr ⟨hj, hne, rfl⟩
    simp [h] at hmem
  · rintro rfl
    refine List.eq_nil_iff_forall_not_mem.mpr fun p hp => ?_
    obtain ⟨-, hne, -⟩ := (mem_delta prev prev p.1 p.2).mp hp
    exact hne rfl

/-- Settles O30: the pairs of the delta make the cells that differ those of the current frame. -/
theorem deltaRebuildsTheFrame : Obligations.DeltaRebuildsTheFrame := by
  intro prev cur
  refine ⟨?length, delta_eq_nil_iff prev cur, FrameBuf.ext_cells fun j hj => ?rebuilt⟩
  case length =>
    rw [delta_eq_map_filter, List.length_map]
    exact (List.length_filter_le _ _).trans_eq (List.length_range (n := 2048))
  case rebuilt =>
    have hpairs : ∀ p ∈ delta prev cur, p.1 < 2048 ∧ p.2 = cur.cell p.1 := fun p hp => by
      obtain ⟨hlt, -, hv⟩ := (mem_delta prev cur p.1 p.2).mp hp
      exact ⟨hlt, hv⟩
    rw [cell_applyDelta prev hpairs]
    split
    next => rfl
    next hnot =>
      by_contra hne
      exact hnot (List.mem_map_of_mem ((mem_delta prev cur j (cur.cell j)).mpr ⟨hj, hne, rfl⟩))

end Sys2Proof.Machine
end

section
/-! PROOFS. What no instruction reads (46_execution_loop.md section 1, 10_state.md section 4): an update of such
pieces of state, made before an instruction, is the same update made after it. -/

namespace Sys2Proof.Machine

/-- The update `f` overwrites pieces of state only that no instruction reads: it keeps what instructions read, and it
may be made before or after any write of theirs.  The random byte, which CXNN reads, and the write of ST are left to
the instruction that needs them. -/
structure Unread (f : State → State) : Prop where
  v (s : State) : (f s).v = s.v
  i (s : State) : (f s).i = s.i
  pc (s : State) : (f s).pc = s.pc
  sp (s : State) : (f s).sp = s.sp
  stack (s : State) : (f s).stack = s.stack
  dt (s : State) : (f s).dt = s.dt
  fb (s : State) : (f s).fb = s.fb
  keys (s : State) : (f s).keys = s.keys
  mem (s : State) : (f s).mem = s.mem
  params (s : State) : (f s).params = s.params
  setReg (s : State) (x : Reg) (b : Byte) : (f s).setReg x b = f (s.setReg x b)
  setIndex (s : State) (w : Word) : (f s).setIndex w = f (s.setIndex w)
  setPC (s : State) (w : Word) : (f s).setPC w = f (s.setPC w)
  setDelay (s : State) (b : Byte) : (f s).setDelay b = f (s.setDelay b)
  setFrame (s : State) (fb : FrameBuf) : (f s).setFrame fb = f (s.setFrame fb)
  storeAtIndex (s : State) (bytes : List Byte) : (f s).storeAtIndex bytes = f (s.storeAtIndex bytes)
  loadRegsUpTo (s : State) (x : Reg) : (f s).loadRegsUpTo x = f (s.loadRegsUpTo x)
  takeFault (s : State) (e : FaultInfo) : (f s).takeFault e = f (s.takeFault e)
  moveStack (s : State) (stack : Vector Word 16) (sp : Fin 17) :
    { f s with stack := stack, sp := sp } = f { s with stack := stack, sp := sp }

namespace Unread

variable {f : State → State} {s : State}

/-! ## Reads and writes made of those -/

theorem reg (hf : Unread f) (s : State) (r : Reg) : (f s).reg r = s.reg r := by
  simp only [State.reg, hf.v]

theorem setResultAndFlag (hf : Unread f) (s : State) (x : Reg) (a b : Byte) :
    (f s).setResultAndFlag x a b = f (s.setResultAndFlag x a b) := by
  simp only [State.setResultAndFlag, hf.setReg]

theorem advance (hf : Unread f) (s : State) : (f s).advance = f s.advance := by
  simp only [State.advance, hf.pc, hf.setPC]

theorem skipIf (hf : Unread f) (s : State) (c : Bool) : (f s).skipIf c = f (s.skipIf c) := by
  simp only [State.skipIf, hf.pc, hf.setPC]

theorem bumpIndex (hf : Unread f) (s : State) (n : Nat) : (f s).bumpIndex n = f (s.bumpIndex n) := by
  simp only [State.bumpIndex, hf.params, hf.i, hf.setIndex]
  split <;> rfl

theorem push (hf : Unread f) (s : State) (ret : Word) : (f s).push ret = (s.push ret).map f := by
  unfold State.push
  simp only [hf.sp, hf.stack, hf.moveStack]
  split <;> rfl

theorem pop (hf : Unread f) (s : State) : (f s).pop = s.pop.map (Prod.map id f) := by
  unfold State.pop
  simp only [hf.sp, hf.stack]
  split
  next => exact congrArg (fun t => some (_, t)) (hf.moveStack s s.stack _)
  next => rfl

/-! ## The shapes of an execute phase -/

theorem raise (hf : Unread f) (s : State) (e : FaultInfo) : raise e (f s) = mapNext f (raise e s) := by
  simp only [raise_eq, mapNext, hf.takeFault]

theorem withData (hf : Unread f) (s : State) (n : Nat) {r r' : StepResult} (hr : r' = mapNext f r) :
    withData (f s) n r' = mapNext f (withData s n r) := by
  simp only [Machine.withData, hf.i, hf.raise, hr]
  split <;> rfl

theorem withHexOperand (hf : Unread f) (s : State) (x : Reg) {r r' : Fin 16 → StepResult}
    (hr : ∀ k, r' k = mapNext f (r k)) : withHexOperand (f s) x r' = mapNext f (withHexOperand s x r) := by
  simp only [Machine.withHexOperand, hf.params, hf.reg, hf.raise, hr]
  split <;> rfl

theorem execCall (hf : Unread f) (nnn : BitVec 12) (s : State) :
    execCall nnn (f s) = mapNext f (execCall nnn s) := by
  simp only [Machine.execCall, hf.push, hf.pc, hf.raise]
  cases s.push (addWord s.pc 2) with
  | some t => simp only [Option.map_some, hf.setPC, complete_eq, mapNext]
  | none => rfl

theorem execRet (hf : Unread f) (s : State) : execRet (f s) = mapNext f (execRet s) := by
  simp only [Machine.execRet, hf.pop, hf.pc, hf.raise]
  cases s.pop with
  | some popped => simp only [Option.map_some, Prod.map, id_eq, hf.setPC, complete_eq, mapNext]
  | none => rfl

theorem execLdVxK (hf : Unread f) (x : Reg) (s : State) : execLdVxK x (f s) = mapNext f (execLdVxK x s) := by
  simp only [Machine.execLdVxK, hf.keys, hf.setReg, hf.advance]
  split <;> rfl

/-- The execute phase of every instruction: what it reads is kept, and its writes may be made before the update. -/
theorem exec (hf : Unread f) (i : Instr) (s : State)
    (hrnd : ∀ x nn, i = .rnd x nn → (f s).inputs.rnd = s.inputs.rnd)
    (hsound : ∀ x, i = .ldStVx x → ∀ b, (f s).setSound b = f (s.setSound b)) :
    exec i (f s) = mapNext f (exec i s) := by
  cases i with
  | call nnn => exact hf.execCall nnn s
  | ret => exact hf.execRet s
  | ldVxK x => exact hf.execLdVxK x s
  | cls => simp only [Machine.exec, execCls, complete_eq, mapNext, hf.setFrame, hf.advance]
  | jp => simp only [Machine.exec, execJp, complete_eq, mapNext, hf.setPC]
  | jpV0 => simp only [Machine.exec, execJpV0, complete_eq, mapNext, hf.reg, hf.setPC]
  | seImm | sneImm | seReg | sneReg =>
    simp only [Machine.exec, execSeImm, execSneImm, execSeReg, execSneReg, complete_eq, mapNext, hf.reg, hf.skipIf]
  | ldImm | addImm | ldReg | orReg | andReg | xorReg =>
    simp only [Machine.exec, execLdImm, execAddImm, execLdReg, execOrReg, execAndReg, execXorReg, complete_eq, mapNext,
      hf.reg, hf.setReg, hf.advance]
  | addReg | subReg | shr | subnReg | shl =>
    simp only [Machine.exec, execAddReg, execSubReg, execShr, execSubnReg, execShl, State.shiftOperand, complete_eq,
      mapNext, hf.reg, hf.params, hf.setResultAndFlag, hf.advance]
  | ldI | addI =>
    simp only [Machine.exec, execLdI, execAddI, complete_eq, mapNext, hf.i, hf.reg, hf.setIndex, hf.advance]
  | rnd x nn => simp only [Machine.exec, execRnd, complete_eq, mapNext, hrnd x nn rfl, hf.setReg, hf.advance]
  | ldVxDt => simp only [Machine.exec, execLdVxDt, complete_eq, mapNext, hf.dt, hf.setReg, hf.advance]
  | ldDtVx => simp only [Machine.exec, execLdDtVx, complete_eq, mapNext, hf.reg, hf.setDelay, hf.advance]
  | ldStVx x => simp only [Machine.exec, execLdStVx, complete_eq, mapNext, hf.reg, hsound x rfl, hf.advance]
  | skp | sknp =>
    exact hf.withHexOperand s _ fun k => by simp only [State.keyDown, hf.keys, complete_eq, mapNext, hf.skipIf]
  | ldF => exact hf.withHexOperand s _ fun k => by simp only [complete_eq, mapNext, hf.setIndex, hf.advance]
  | drw =>
    exact hf.withData s _ (by simp only [State.drawn, State.drawOrigin, complete_eq, mapNext, hf.fb, hf.params, hf.reg,
      hf.mem, hf.i, hf.setFrame, hf.setReg, hf.advance])
  | ldB => exact hf.withData s _ (by simp only [complete_eq, mapNext, hf.reg, hf.storeAtIndex, hf.advance])
  | stRegs =>
    exact hf.withData s _ (by simp only [State.regsUpTo, complete_eq, mapNext, hf.v, hf.storeAtIndex, hf.bumpIndex,
      hf.advance])
  | ldRegs => exact hf.withData s _ (by simp only [complete_eq, mapNext, hf.loadRegsUpTo, hf.bumpIndex, hf.advance])

end Unread

/-! ## The statements -/

/-- Settles O37: the inputs, TDIV, IR, the pending events and the outputs are unread, and CXNN finds its random byte. -/
theorem executeReadsNoHiddenState : Obligations.ExecuteReadsNoHiddenState := by
  intro i s inp k w h c f hinp
  have hf : Unread fun t => { t with inputs := inp, tdiv := k, ir := w, host := h, status := c, fbOut := f } := by
    constructor <;> intros <;> rfl
  refine hf.exec i s (fun x nn hi => ?random) fun _ _ _ => rfl
  case random => exact hinp.resolve_left fun hne => hne x nn hi

/-- Settles O38: ST is unread, and FX18 writes it without having read it. -/
theorem noInstructionReadsSoundTimer : Obligations.NoInstructionReadsSoundTimer := by
  refine ⟨fun i s b hi => ?unread, fun _ _ _ => rfl⟩
  case unread =>
    have hf : Unread fun t => { t with st := b } := by
      constructor <;> intros <;> rfl
    exact hf.exec i s (fun _ _ _ => rfl) fun x hx => absurd hx (hi x)

end Sys2Proof.Machine
end

section
/-! PROOFS. The later phases of a tick (46_execution_loop.md R213 to R216): each phase has a frame of its own, and a
tick that did not fault is their composition. -/

namespace Sys2Proof.Machine

variable (s : State)

/-! ## One frame per phase -/

theorem onlyChanges_timerUpdate : OnlyChanges [.tdiv, .dt, .st] s s.timerUpdate := by
  intro p hp
  unfold State.timerUpdate
  cases p with
  | tdiv | dt | st => simp at hp
  | _ => split <;> rfl

theorem onlyChanges_present : OnlyChanges [.fbOut] s s.present := by
  intro p hp
  cases p with
  | fbOut => simp at hp
  | _ => rfl

theorem onlyChanges_refreshKeys : OnlyChanges [.keys] s s.refreshKeys := by
  intro p hp
  cases p with
  | keys => simp at hp
  | _ => rfl

theorem onlyChanges_cancelCheck : OnlyChanges [.lstate, .result] s s.cancelCheck := by
  intro p hp
  unfold State.cancelCheck
  cases p with
  | lstate | result => simp at hp
  | _ => split <;> rfl

/-! ## The end of a tick, by `present_ok` -/

variable {s}

theorem State.finishTick_of_presentOk (h : s.inputs.presentOk = true) :
    s.finishTick = s.timerUpdate.present.refreshKeys.cancelCheck := if_pos h

theorem State.finishTick_of_presentFailed (h : s.inputs.presentOk = false) :
    s.finishTick = s.timerUpdate.present.takeFault .rendererError := by
  simp [State.finishTick, h]

/-- R213, R217: the timers are updated whatever becomes of the later phases. -/
@[simp] theorem State.finishTick_timers (s : State) :
    s.finishTick.tdiv = s.timerUpdate.tdiv ∧ s.finishTick.dt = s.timerUpdate.dt ∧
      s.finishTick.st = s.timerUpdate.st := by
  unfold State.finishTick
  split <;> simp

theorem State.timerUpdate_of_eq (h : s.tdiv + 1 = s.params.timerDivider) :
    s.timerUpdate = { s with tdiv := 0, dt := decTimer s.dt, st := decTimer s.st } := if_pos h

theorem State.timerUpdate_of_ne (h : s.tdiv + 1 ≠ s.params.timerDivider) :
    s.timerUpdate = { s with tdiv := s.tdiv + 1 } := if_neg h

/-! ## The statements -/

/-- Settles O43: the timer update, which no later phase touches. -/
theorem timerUpdateDividesTicks : Obligations.TimerUpdateDividesTicks := by
  rintro s t rfl
  refine ⟨fun h => ?reached, fun h => ?counted⟩
  case reached => simp [State.timerUpdate_of_eq h, decTimer_toNat]
  case counted => simp [State.timerUpdate_of_ne h]

/-- Settles O44: presentation, then the keys and cancellation, or the renderer's fault. -/
theorem presentRefreshCancel : Obligations.PresentRefreshCancel := by
  rintro s t rfl
  have htimers : OnlyChanges [.tdiv, .dt, .st, .fbOut] s s.timerUpdate.present :=
    ((onlyChanges_timerUpdate s).mono (by simp)).trans ((onlyChanges_present _).mono (by simp))
  refine ⟨?handed, fun hfailed => ?failed, fun hok => ?ok⟩
  case handed =>
    unfold State.finishTick
    split <;> simp
  case failed =>
    rw [State.finishTick_of_presentFailed hfailed]
    exact ⟨rfl, rfl, by simp, (htimers.mono (by simp)).trans ((onlyChanges_takeFault _ _).mono (by simp))⟩
  case ok =>
    rw [State.finishTick_of_presentOk hok]
    refine ⟨fun k _ => by simp, fun hcancel => ?cancelled, fun hgoesOn => ?goesOn, ?frame⟩
    case cancelled => simp [State.cancelCheck, hcancel]
    case goesOn => simp [State.cancelCheck, hgoesOn]
    case frame =>
      exact (htimers.mono (by simp)).trans
        (((onlyChanges_refreshKeys _).mono (by simp)).trans ((onlyChanges_cancelCheck _).mono (by simp)))

/-- Settles O39: the tick of a legal word is the execute phase and what follows it. -/
theorem stepRunsTheDecodedInstruction : Obligations.StepRunsTheDecodedInstruction := by
  rintro s inp rest i w hl hhost hpc rfl hd
  obtain ⟨t, hexec, -⟩ := exec_answersWithin_mayWrite i ((s.takeEvent rest).beginTick inp).fetched
  have hstep : step s = .next t.afterExecute := by
    rw [step_tick_ok hl hhost hpc hd, hexec]
    rfl
  refine ⟨t, hexec, fun hfailed => ?faulted, fun hgoesOn => ?goesOn⟩
  case faulted => rw [hstep, State.afterExecute, if_pos hfailed]
  case goesOn => rw [hstep, State.afterExecute_of_ne_failed hgoesOn]

end Sys2Proof.Machine
end

section
/-! PROOFS. What a step moves (10_state.md R26, 95_test_vectors.md S7): the timers and SP are moved by ticks that
execute an instruction, and by no command and no other event. -/

namespace Sys2Proof.Machine

/-! ## Commands leave the timers and SP alone -/

@[simp] theorem State.cmdInitialize_dt_st_sp (s : State) :
    s.cmdInitialize.dt = s.dt ∧ s.cmdInitialize.st = s.st ∧ s.cmdInitialize.sp = s.sp := by
  unfold State.cmdInitialize
  split <;> simp

@[simp] theorem State.cmdLoad_dt_st_sp (s : State) (bytes : List Byte) :
    (s.cmdLoad bytes).dt = s.dt ∧ (s.cmdLoad bytes).st = s.st ∧ (s.cmdLoad bytes).sp = s.sp := by
  unfold State.cmdLoad
  split
  next => split <;> simp
  next => simp

@[simp] theorem State.cmdRun_dt_st_sp (s : State) (bound : Bool) :
    (s.cmdRun bound).dt = s.dt ∧ (s.cmdRun bound).st = s.st ∧ (s.cmdRun bound).sp = s.sp := by
  unfold State.cmdRun
  split
  next => split <;> simp
  next => simp

/-- A step leaves the timers and SP alone, or it executes the word at PC. -/
theorem step_dt_st_sp_or_executed {s t : State} (h : step s = .next t) :
    (t.dt = s.dt ∧ t.st = s.st ∧ t.sp = s.sp) ∨
      ∃ inp rest i u, decode s.fetchWord = .ok i ∧
        exec i ((s.takeEvent rest).beginTick inp).fetched = .next u ∧ t = u.afterExecute := by
  cases step_cases h with
  | executed inp rest i u _ _ _ hd hexec => exact .inr ⟨inp, rest, i, u, hd, hexec, rfl⟩
  | _ => exact .inl (by simp)

/-! ## Timers -/

/-- A timer went down by at most one. -/
def TimerFalls (a b : Byte) : Prop := b.toNat = a.toNat ∨ b.toNat + 1 = a.toNat

theorem timerFalls_decTimer (a : Byte) : TimerFalls a (decTimer a) := by
  rw [TimerFalls, decTimer_toNat]
  omega

theorem timerFalls_afterExecute (u : State) :
    TimerFalls u.dt u.afterExecute.dt ∧ TimerFalls u.st u.afterExecute.st := by
  by_cases hfailed : u.lstate = .failed
  · rw [State.afterExecute, if_pos hfailed]
    exact ⟨.inl rfl, .inl rfl⟩
  · rw [State.afterExecute_of_ne_failed hfailed]
    by_cases hdiv : u.tdiv + 1 = u.params.timerDivider
    · simp [State.timerUpdate_of_eq hdiv, timerFalls_decTimer]
    · simp [State.timerUpdate_of_ne hdiv, TimerFalls]

/-- R27, in the list of writers. -/
theorem mayWrite_dt (s : State) {i : Instr} (h : ∀ x, i ≠ .ldDtVx x) : mayWrite s i .dt = false := by
  cases i with
  | ldDtVx x => exact absurd rfl (h x)
  | _ => simp [mayWrite, Part.isCell, Part.isStored, Part.isSlotAt, Part.isRegThrough, Part.isFaultEntry]

theorem mayWrite_st (s : State) {i : Instr} (h : ∀ x, i ≠ .ldStVx x) : mayWrite s i .st = false := by
  cases i with
  | ldStVx x => exact absurd rfl (h x)
  | _ => simp [mayWrite, Part.isCell, Part.isStored, Part.isSlotAt, Part.isRegThrough, Part.isFaultEntry]

theorem mayWrite_sp (s : State) {i : Instr} (hcall : ∀ nnn, i ≠ .call nnn) (hret : i ≠ .ret) :
    mayWrite s i .sp = false := by
  cases i with
  | call nnn => exact absurd rfl (hcall nnn)
  | ret => exact absurd rfl hret
  | _ => simp [mayWrite, Part.isCell, Part.isStored, Part.isRegThrough, Part.isFaultEntry]

/-- Settles O45: a timer that the instruction did not set is moved by the timer update only. -/
theorem timersFallByAtMostOne : Obligations.TimersFallByAtMostOne := by
  intro s t hstep
  obtain ⟨hdt, hst, -⟩ | ⟨inp, rest, i, u, hd, hexec, rfl⟩ := step_dt_st_sp_or_executed hstep
  · exact ⟨fun _ => .inl (congrArg _ hdt), fun _ => .inl (congrArg _ hst)⟩
  · obtain ⟨hfallsDt, hfallsSt⟩ := timerFalls_afterExecute u
    refine ⟨fun hset => ?dt, fun hset => ?st⟩
    case dt =>
      have hkept : u.dt = s.dt := Part.same_of_exec hexec (mayWrite_dt _ fun x hi => hset x (hi ▸ hd))
      exact hkept ▸ hfallsDt
    case st =>
      have hkept : u.st = s.st := Part.same_of_exec hexec (mayWrite_st _ fun x hi => hset x (hi ▸ hd))
      exact hkept ▸ hfallsSt

/-! ## The stack pointer -/

@[simp] theorem State.finishTick_sp (s : State) : s.finishTick.sp = s.sp := by
  unfold State.finishTick
  split <;> simp

@[simp] theorem State.afterExecute_sp (s : State) : s.afterExecute.sp = s.sp := by
  unfold State.afterExecute
  split
  next => rfl
  next => exact s.finishTick_sp

theorem sp_of_exec_call {nnn : BitVec 12} {s t : State} (h : exec (.call nnn) s = .next t) :
    t.sp = s.sp ∨ t.sp.val = s.sp.val + 1 := by
  by_cases hfull : s.sp.val = 16
  · rw [exec_call_of_full nnn hfull] at h
    cases h
    exact .inl rfl
  · have hk : s.sp = (⟨s.sp.val, by omega⟩ : Fin 16).castSucc := rfl
    rw [exec_call_of_room nnn hk] at h
    cases h
    exact .inr rfl

theorem sp_of_exec_ret {s t : State} (h : exec .ret s = .next t) : t.sp = s.sp ∨ t.sp.val + 1 = s.sp.val := by
  by_cases hempty : s.sp.val = 0
  · rw [exec_ret_of_empty hempty] at h
    cases h
    exact .inl rfl
  · have hk : s.sp = (⟨s.sp.val - 1, by omega⟩ : Fin 16).succ := Fin.ext (by simp; omega)
    rw [exec_ret_of_stacked hk] at h
    cases h
    exact .inr (by simp; omega)

/-- Settles O46: of the instructions only a call and a return write SP, and nothing else in a step does. -/
theorem stackPointerMovesOnlyByCallAndReturn : Obligations.StackPointerMovesOnlyByCallAndReturn := by
  intro s t hstep
  obtain ⟨-, -, hsp⟩ | ⟨inp, rest, i, u, hd, hexec, rfl⟩ := step_dt_st_sp_or_executed hstep
  · exact .inl hsp
  · rw [State.afterExecute_sp]
    by_cases hcall : ∃ nnn, i = .call nnn
    · obtain ⟨nnn, rfl⟩ := hcall
      exact (sp_of_exec_call hexec).imp_right fun h => .inl ⟨h, nnn, hd⟩
    by_cases hret : i = .ret
    · subst hret
      exact (sp_of_exec_ret hexec).imp_right fun h => .inr ⟨h, hd⟩
    · have hwriters := mayWrite_sp ((s.takeEvent rest).beginTick inp).fetched (fun nnn hi => hcall ⟨nnn, hi⟩) hret
      exact .inl (Part.same_of_exec hexec hwriters)

end Sys2Proof.Machine
end

section
/-! PROOFS. The loop and its host (46_execution_loop.md section 2): what each event of the host does in each loop
state, and that it moves the loop along the table of R205 only. -/

namespace Sys2Proof.Machine

/-! ## A step, by the event it takes -/

section

variable {s : State} {rest : List HostEvent}

theorem step_initializeCmd (h : s.host = .initializeCmd :: rest) :
    step s = .next (s.takeEvent rest).cmdInitialize := by
  rw [step, stepWith, h]
  rfl

theorem step_loadCmd {bytes : List Byte} (h : s.host = .loadCmd bytes :: rest) :
    step s = .next ((s.takeEvent rest).cmdLoad bytes) := by
  rw [step, stepWith, h]
  rfl

theorem step_runCmd {bound : Bool} (h : s.host = .runCmd bound :: rest) :
    step s = .next ((s.takeEvent rest).cmdRun bound) := by
  rw [step, stepWith, h]
  rfl

theorem step_tick_refused {inp : TickInputs} (h : s.host = .tick inp :: rest) (hl : s.lstate ≠ .running) :
    step s = .next ((s.takeEvent rest).answer .refused) := by
  rw [step, stepWith, h]
  exact if_neg hl

theorem step_concurrentLaunch (h : s.host = .concurrentLaunch :: rest) : step s = .fault .concurrentLaunch := by
  rw [step, stepWith, h]
  rfl

theorem step_idle (h : s.host = []) : step s = .next s := by
  rw [step, stepWith, h]

/-- A tick of a running loop always answers a next state: the fetch faults, the word is illegal, or it is executed. -/
theorem exists_step_tick_next {inp : TickInputs} (h : s.host = .tick inp :: rest) (hl : s.lstate = .running) :
    ∃ t, step s = .next t := by
  by_cases hpc : s.pc.toNat ≤ 4094
  · obtain ⟨t, hstep, -⟩ := exists_step_ir_eq_fetchWord hl h hpc
    exact ⟨t, hstep⟩
  · exact ⟨_, step_tick_outside hl h (Nat.lt_of_not_le hpc)⟩

end

theorem run_succ_of_step {M : Host.Core} {k : Nat} {s t : M.State} (h : M.step s = .next t) :
    M.run (k + 1) s = M.run k t := by
  simp only [Host.Core.run, h]

/-- Settles O53, by the event that is pending. -/
theorem onlyConcurrentLaunchStops : Obligations.OnlyConcurrentLaunchStops := by
  intro s
  refine ⟨fun rest hh => step_concurrentLaunch hh, fun hne => ?answers, fun hidle k => ?idle⟩
  case answers =>
    cases hh : s.host with
    | nil => exact ⟨s, step_idle hh⟩
    | cons e rest =>
      cases e with
      | initializeCmd => exact ⟨_, step_initializeCmd hh⟩
      | loadCmd bytes => exact ⟨_, step_loadCmd hh⟩
      | runCmd bound => exact ⟨_, step_runCmd hh⟩
      | concurrentLaunch => exact absurd hh (hne rest)
      | tick inp =>
        by_cases hl : s.lstate = .running
        · exact exists_step_tick_next hh hl
        · exact ⟨_, step_tick_refused hh hl⟩
  case idle =>
    induction k with
    | zero => rfl
    | succ k ih =>
      have hstep : core.step s = .next s := step_idle hidle
      exact (run_succ_of_step hstep).trans ih

/-! ## The table of R205 -/

theorem lstate_afterExecute (u : State) (h : u.lstate = .running ∨ u.lstate = .failed) :
    u.afterExecute.lstate = .running ∨ u.afterExecute.lstate = .stopped ∨ u.afterExecute.lstate = .failed := by
  by_cases hfailed : u.lstate = .failed
  · rw [State.afterExecute, if_pos hfailed]
    exact .inr (.inr hfailed)
  · have hl := h.resolve_right hfailed
    rw [State.afterExecute_of_ne_failed hfailed]
    cases hok : u.inputs.presentOk with
    | false =>
      rw [State.finishTick_of_presentFailed hok]
      exact .inr (.inr rfl)
    | true =>
      rw [State.finishTick_of_presentOk hok, State.cancelCheck]
      split
      · exact .inr (.inl rfl)
      · exact .inl (by simpa using hl)

/-- A command moves the loop as `loopAfterCommand` says, which is along the table. -/
theorem loopMove_loopAfterCommand {e : HostEvent} (he : e.isCommand = true) (l : LoopState) :
    loopMove e l (loopAfterCommand l e) = true := by
  cases e with
  | initializeCmd | loadCmd => cases l <;> rfl
  | runCmd bound => cases bound <;> cases l <;> rfl
  | tick | concurrentLaunch => cases he

theorem loopMove_tick_of_running {inp : TickInputs} {l : LoopState}
    (h : l = .running ∨ l = .stopped ∨ l = .failed) : loopMove (.tick inp) .running l = true := by
  obtain rfl | rfl | rfl := h <;> rfl

theorem loopMove_tick_of_ne_running {inp : TickInputs} {l : LoopState} (h : l ≠ .running) :
    loopMove (.tick inp) l l = true := by
  cases l with
  | running => exact absurd rfl h
  | _ => rfl

/-- Settles O47, by the cases of a step. -/
theorem loopMovesOnlyAlongItsTable : Obligations.LoopMovesOnlyAlongItsTable := by
  intro s t e rest hhost hstep
  cases step_cases hstep with
  | idle hh => cases hh.symm.trans hhost
  | initializeCmd _ hh =>
    cases hh.symm.trans hhost
    simpa using loopMove_loopAfterCommand (e := .initializeCmd) rfl s.lstate
  | loadCmd bytes _ hh =>
    cases hh.symm.trans hhost
    simpa using loopMove_loopAfterCommand (e := .loadCmd bytes) rfl s.lstate
  | runCmd bound _ hh =>
    cases hh.symm.trans hhost
    simpa using loopMove_loopAfterCommand (e := .runCmd bound) rfl s.lstate
  | tickRefused inp _ hh hl =>
    cases hh.symm.trans hhost
    exact loopMove_tick_of_ne_running hl
  | fetchFault inp _ hh hl =>
    cases hh.symm.trans hhost
    rw [hl]
    rfl
  | decodeFault inp _ _ hh hl =>
    cases hh.symm.trans hhost
    rw [hl]
    rfl
  | executed inp _ i u hh hl _ _ hexec =>
    cases hh.symm.trans hhost
    rw [hl]
    refine loopMove_tick_of_running (lstate_afterExecute u ?_)
    cases exec_cases hexec with
    | completed hlstate => exact .inl (hlstate.trans hl)
    | faulted => exact .inr rfl

/-! ## Commands in their place -/

theorem lt_or_le_of_notMem_storedBytes {a : Word} {n b : Nat} (h : Part.byte b ∉ storedBytes a n) :
    b < a.toNat ∨ a.toNat + n ≤ b := by
  rw [mem_storedBytes] at h
  omega

/-- The frame of `Initialize`: the font and three registers. -/
theorem onlyChanges_initializeWrites (s : State) :
    OnlyChanges (.pc :: .i :: .ir :: .lstate :: storedBytes 0x50 80) s s.initializeWrites := by
  intro p hp
  cases p with
  | pc | i | ir | lstate => simp at hp
  | byte a =>
    have hlen : s.params.font.toList.length = 80 := s.params.font.length_toList
    have ha : Part.byte a ∉ storedBytes 0x50 80 := by simpa using hp
    exact Memory.read_writeBytes_outside s.mem (by rw [hlen]; exact lt_or_le_of_notMem_storedBytes ha)
  | _ => rfl

/-- The frame of a `Load` that writes. -/
theorem onlyChanges_loadWrites (s : State) (bytes : List Byte) :
    OnlyChanges (storedBytes 0x200 bytes.length) s (s.loadWrites bytes) := by
  intro p hp
  cases p with
  | byte a => exact Memory.read_writeBytes_outside s.mem (lt_or_le_of_notMem_storedBytes hp)
  | _ => rfl

/-- Settles O48: the accepted command's writes, the font read back byte by byte. -/
theorem initializeWritesFontAndRegisters : Obligations.InitializeWritesFontAndRegisters := by
  intro s rest hwf hhost hl
  have hstep := step_initializeCmd hhost
  rw [State.cmdInitialize_accepted (s := s.takeEvent rest) (State.acceptsSetup_iff.mpr hl)] at hstep
  refine ⟨_, hstep, rfl, rfl, rfl, rfl, rfl, fun k => ?font, ?frame⟩
  case font =>
    have hfits : fontBase + s.params.font.toList.length ≤ memBytes := by simp [fontBase, memBytes]
    simpa [fontBase] using Memory.read_stored hwf hfits k.val (by simp)
  case frame =>
    have hwrites : OnlyChanges (.pc :: .i :: .ir :: .lstate :: .host :: .status :: storedBytes 0x50 80)
        (s.takeEvent rest) (s.takeEvent rest).initializeWrites :=
      (onlyChanges_initializeWrites _).mono fun p hp => by simp only [List.mem_cons] at hp ⊢; tauto
    exact ((onlyChanges_takeEvent s rest).mono (by simp)).trans
      (hwrites.trans ((onlyChanges_answer _ _).mono (by simp)))

/-- Settles O49: the accepted command's block of bytes, or its failure. -/
theorem loadCopiesTheImageOrNothing : Obligations.LoadCopiesTheImageOrNothing := by
  intro s bytes rest hhost hl
  have hstep := step_loadCmd hhost
  have hsetup : (s.takeEvent rest).acceptsSetup = true := State.acceptsSetup_iff.mpr hl
  refine ⟨fun hwf hle => ?fits, fun hlt => ?tooLong⟩
  case fits =>
    have hfits : imageFits bytes = true := decide_eq_true hle
    rw [State.cmdLoad_accepted hsetup hfits] at hstep
    refine ⟨_, hstep, rfl, Memory.read_stored hwf hle, ?frame⟩
    case frame =>
      have hwrites : OnlyChanges (.host :: .status :: storedBytes 0x200 bytes.length)
          (s.takeEvent rest) ((s.takeEvent rest).loadWrites bytes) :=
        (onlyChanges_loadWrites _ bytes).mono (by simp [List.subset_cons_of_subset])
      exact ((onlyChanges_takeEvent s rest).mono (by simp)).trans
        (hwrites.trans ((onlyChanges_answer _ _).mono (by simp)))
  case tooLong =>
    have hfits : imageFits bytes = false := decide_eq_false (Nat.not_le_of_gt hlt)
    rw [State.cmdLoad_tooLong hsetup hfits] at hstep
    exact ⟨_, hstep, rfl, onlyChanges_takeEvent_answer s rest _⟩

theorem onlyChanges_cmdRun (s : State) (bound : Bool) : OnlyChanges [.lstate, .status] s (s.cmdRun bound) := by
  intro p hp
  unfold State.cmdRun
  cases p with
  | lstate | status => simp at hp
  | _ =>
    split
    · split <;> rfl
    · rfl

/-- Settles O50, by the level of `renderer_bound`. -/
theorem runStartsTheLoopOrFails : Obligations.RunStartsTheLoopOrFails := by
  intro s bound rest hhost hl
  have hstep := step_runCmd hhost
  have hready : (s.takeEvent rest).lstate = .ready := hl
  refine ⟨?bound, ?unbound⟩
  case bound =>
    rintro rfl
    have hrun := State.cmdRun_accepted hready
    exact ⟨_, hstep, by rw [hrun], by rw [hrun],
      ((onlyChanges_takeEvent s rest).mono (by simp)).trans ((onlyChanges_cmdRun _ _).mono (by simp))⟩
  case unbound =>
    rintro rfl
    rw [State.cmdRun_unbound hready] at hstep
    exact ⟨_, hstep, rfl, onlyChanges_takeEvent_answer s rest _⟩

/-! ## Events out of place -/

theorem State.acceptsSetup_eq_false {s : State}
    (h : s.lstate = .running ∨ s.lstate = .stopped ∨ s.lstate = .failed) : s.acceptsSetup = false := by
  obtain hl | hl | hl := h <;> simp [State.acceptsSetup, hl]

/-- Settles O51: each of the four events has its condition for being refused. -/
theorem eventsOutOfPlaceAreRefused : Obligations.EventsOutOfPlaceAreRefused := by
  intro s e rest hhost hplace
  have hrefused : step s = .next ((s.takeEvent rest).answer .refused) := by
    cases e with
    | initializeCmd =>
      have hsetup : (s.takeEvent rest).acceptsSetup = false := State.acceptsSetup_eq_false hplace
      rw [step_initializeCmd hhost, State.cmdInitialize_refused hsetup]
    | loadCmd bytes =>
      have hsetup : (s.takeEvent rest).acceptsSetup = false := State.acceptsSetup_eq_false hplace
      rw [step_loadCmd hhost, State.cmdLoad_refused bytes hsetup]
    | runCmd bound => rw [step_runCmd hhost, State.cmdRun_refused (s := s.takeEvent rest) bound hplace]
    | tick inp => exact step_tick_refused hhost hplace
    | concurrentLaunch => exact hplace.elim
  exact ⟨_, hrefused, rfl, onlyChanges_takeEvent_answer s rest .refused⟩

/-! ## Power-on -/

/-- Settles O55: power-on is the state before the first tick, with no image and no font yet. -/
theorem powerOnState : Obligations.PowerOnState := by
  refine ⟨?_, rfl⟩
  rintro p s rfl
  have h := powerOnIsTheBootState p
  exact ⟨fun _ => rfl, h.reg, rfl, h.i, h.ir, h.sp, h.stack, h.cell, h.keys, h.dt, h.st, h.tdiv, rfl, h.result,
    h.params⟩

end Sys2Proof.Machine
end
